-- ==== Sys2Proof/Config.lean ====
section
/-! DEFINITION. The parameters of 00_scope.md R7 that the spec lets an implementation choose. Their values in this spec
are in Machine/Params.lean. -/

namespace Sys2Proof

/-- `ZERO_BS_POLICY`: what an explicitly supplied `blockSize` of 0 does (00_scope.md R7, 42_pad.md R91). -/
inductive ZeroBsPolicy where
  /-- 0 selects the default block size: this spec's value (90_conflicts.md C1). -/
  | default16
  /-- 0 raises `InvalidArgument`: the other value the spec allows. -/
  | invalidArgument
  deriving DecidableEq, Repr

/-- The implementation parameters a model takes as an argument (00_scope.md R7). They are fixed for a machine: no step
changes them. -/
structure Config where
  /-- `HAS_DUMP`: whether the `DUMP` command exists. -/
  hasDump : Bool
  /-- `ZERO_BS_POLICY`. -/
  zeroBsPolicy : ZeroBsPolicy
  /-- `MAXLEN`: the largest sequence length a command may read or produce; `none` leaves lengths unbounded. -/
  maxLen : Option Nat
  deriving DecidableEq, Repr

end Sys2Proof
end

