-- ==== Sys2Proof/Machine/Params.lean ====
section
/-! DEFINITION. The values this spec gives the parameters of 00_scope.md R7, and the question whether a length is within
`MAXLEN`. -/

namespace Sys2Proof.Machine

/-- `DEFAULT_PE`: `paddingEnabled` when it is unspecified (00_scope.md R7; a constant, 10_state.md R27). -/
def defaultPe : Bool := true

/-- `DEFAULT_BS`: `blockSize` in bytes when it is unspecified (00_scope.md R7; a constant, 10_state.md R27; log entry 18). -/
def defaultBs : Nat := 16

/-- The parameter values of this spec: `HAS_DUMP` true, `ZERO_BS_POLICY` default16, and lengths unbounded, which
92_eei_decisions.md D14 names as a model's default for the OPEN `MAXLEN` (log entry 5). -/
def specConfig : Config :=
  { hasDump := true, zeroBsPolicy := .default16, maxLen := none }

/-- A sequence of `n` entries or bytes is within `MAXLEN` (20_memory.md R39). -/
def admitsLength (cfg : Config) (n : Nat) : Bool :=
  match cfg.maxLen with
  | none => true
  | some m => decide (n ≤ m)

end Sys2Proof.Machine
end

