-- ==== Sys2Proof/Word.lean ====
section
/-! DEFINITION. The widths of the Buffer Codec's data: bytes, words, command words (00_scope.md R7). -/

namespace Sys2Proof

/-- A byte, 0..255 (10_state.md R10). -/
abbrev Byte := BitVec 8

/-- A word of a bit array, 32 bits, never read as a signed number (10_state.md R11). -/
abbrev Word := BitVec 32

/-- A command word, 40 bits (30_encoding.md R50). It is one value and has no byte order (20_memory.md R31). -/
abbrev CmdWord := BitVec 40

end Sys2Proof
end

