-- ==== Sys2Proof/Syntax.lean ====
section
/-! DEFINITION. The abstract commands (30_encoding.md R61), the entries of a bit array (10_state.md R12), and the names
under which the decoder rejects a command word. -/

namespace Sys2Proof

/-- A command with its parameters, without its operand (30_encoding.md R51, R61): one constructor for each row of
opcode_table.json. `pe` is `paddingEnabled` and `bs` is `blockSize` in bytes, each `none` when unspecified (10_state.md R19). -/
inductive Instr where
  /-- `ENCODE`, bit array to byte buffer (40_encode.md R70). -/
  | encode (pe : Option Bool) (bs : Option Int)
  /-- `DECODE`, byte buffer to bit array (41_decode.md R80). -/
  | decode
  /-- `PAD`, zero-extend a byte buffer to a block boundary (42_pad.md R90). -/
  | pad (pe : Option Bool) (bs : Option Int)
  /-- `DUMP`, hexadecimal text of a byte buffer to the sink (43_dump.md R100). -/
  | dump
  deriving DecidableEq, Repr

/-- An entry of a bit array: a word and how many of its most significant bits count (10_state.md R12). -/
structure Entry where
  value : Word
  sig : BitVec 8
  deriving DecidableEq, Repr

/-- Why a command word is invalid: the condition of 30_encoding.md R59 it breaks. -/
inductive Reject where
  /-- V1: a bit of `RSV` is set. -/
  | reservedBitsSet
  /-- V2: `PE` is set although `PEV` is 0. -/
  | enableNotSupplied
  /-- V3: `BS` is not 0 although `BSV` is 0. -/
  | blockSizeNotSupplied
  /-- V4: `DECODE` with a parameter bit set. -/
  | parameterOnDecode
  /-- V4: `DUMP` with a parameter bit set. -/
  | parameterOnDump
  /-- V5: `DUMP` in a unit without it (`HAS_DUMP` false). -/
  | dumpAbsent
  deriving DecidableEq, Repr

end Sys2Proof
end

