-- ==== Sys2Proof/WellFormed.lean ====
section
/-! DEFINITION. Which abstract commands a command word can carry (30_encoding.md R53, R61). -/

namespace Sys2Proof

/-- A supplied block size fits the signed 32-bit field `BS`: `-2^31 <= bs < 2^31` (30_encoding.md R53). -/
def blockSizeFits : Option Int → Bool
  | none => true
  | some b => decide (-2147483648 ≤ b) && decide (b < 2147483648)

/-- A command that `CMD40` can carry: its block size, if it has one, fits the field. -/
def Instr.wellFormed : Instr → Bool
  | .encode _ bs => blockSizeFits bs
  | .decode => true
  | .pad _ bs => blockSizeFits bs
  | .dump => true

/-- `Instr.wellFormed` as a proposition. -/
abbrev WellFormed (i : Instr) : Prop := i.wellFormed = true

end Sys2Proof
end

