-- ==== Sys2Proof/Decode.lean ====
section
/-! DEFINITION. The 40-bit command word and the 40-bit entry: decoder and encoder (30_encoding.md R50 to R56, R59, R61). -/

namespace Sys2Proof

/-- Field `OP`, bits 1:0 (30_encoding.md R50, R51). -/
def opField (c : CmdWord) : BitVec 2 := c.extractLsb' 0 2

/-- Field `PEV`, bit 2 (30_encoding.md R52). -/
def pevField (c : CmdWord) : Bool := c.getLsbD 2

/-- Field `PE`, bit 3 (30_encoding.md R52). -/
def peField (c : CmdWord) : Bool := c.getLsbD 3

/-- Field `BSV`, bit 4 (30_encoding.md R53). -/
def bsvField (c : CmdWord) : Bool := c.getLsbD 4

/-- Field `RSV`, bits 7:5 (30_encoding.md R54). -/
def rsvField (c : CmdWord) : BitVec 3 := c.extractLsb' 5 3

/-- Field `BS`, bits 39:8 (30_encoding.md R53). -/
def bsField (c : CmdWord) : BitVec 32 := c.extractLsb' 8 32

/-- Bits 39:2, every bit that is no part of `OP`; 0 in `DECODE` and `DUMP` (30_encoding.md R59 V4). -/
def parameterBits (c : CmdWord) : BitVec 38 := c.extractLsb' 2 38

/-- `paddingEnabled` as the word carries it (30_encoding.md R61). -/
def suppliedPe (c : CmdWord) : Option Bool :=
  if pevField c then some (peField c) else none

/-- `blockSize` as the word carries it: `BS` sign-extended (30_encoding.md R53, R61). -/
def suppliedBs (c : CmdWord) : Option Int :=
  if bsvField c then some (bsField c).toInt else none

/-- The conditions V1 to V5 of 30_encoding.md R59, tried in that order: the first one broken, or `none` for a valid word
(which one is named when several are broken is the model's choice, log entry 8). -/
def invalidity (hasDump : Bool) (c : CmdWord) : Option Reject :=
  if rsvField c ≠ 0#3 then some .reservedBitsSet
  else if pevField c = false ∧ peField c = true then some .enableNotSupplied
  else if bsvField c = false ∧ bsField c ≠ 0#32 then some .blockSizeNotSupplied
  else if opField c = 1#2 ∧ parameterBits c ≠ 0#38 then some .parameterOnDecode
  else if opField c = 3#2 ∧ parameterBits c ≠ 0#38 then some .parameterOnDump
  else if opField c = 3#2 ∧ hasDump = false then some .dumpAbsent
  else none

/-- The command a valid word stands for (30_encoding.md R51, R61). -/
def commandOf (c : CmdWord) : Instr :=
  if opField c = 0#2 then .encode (suppliedPe c) (suppliedBs c)
  else if opField c = 1#2 then .decode
  else if opField c = 2#2 then .pad (suppliedPe c) (suppliedBs c)
  else .dump

/-- `decode_cmd` of 30_encoding.md R61, total, rejecting an invalid word by name (R59). -/
def decodeCmd (hasDump : Bool) (c : CmdWord) : Except Reject Instr :=
  match invalidity hasDump c with
  | some why => .error why
  | none => .ok (commandOf c)

/-- The command read from a word whose bits are `w`, numbered as opcode_table.json numbers them: the command word is one
40-bit value (20_memory.md R31). `HAS_DUMP` has this spec's value. A word of more than 40 bits is no command. -/
def decodeTableWord (nbits w : Nat) : Option Instr :=
  if nbits ≤ 40 then
    match decodeCmd Machine.specConfig.hasDump (BitVec.ofNat 40 (w % 2 ^ nbits)) with
    | .ok i => some i
    | .error _ => none
  else none

/-- The word with the given parameters and operation: `{BS, 000, BSV, PE, PEV, OP}` (30_encoding.md R61). -/
def packWord (pe : Option Bool) (bs : Option Int) (op : BitVec 2) : CmdWord :=
  (BitVec.ofInt 32 (bs.getD 0)) ++ (0#3) ++ BitVec.ofBool bs.isSome ++ BitVec.ofBool (pe.getD false)
    ++ BitVec.ofBool pe.isSome ++ op

/-- `encode_cmd` of 30_encoding.md R61. -/
def encodeCmd : Instr → CmdWord
  | .encode pe bs => packWord pe bs 0#2
  | .decode => packWord none none 1#2
  | .pad pe bs => packWord pe bs 2#2
  | .dump => packWord none none 3#2

/-- `1 <= sig <= 32`: the tags an entry may carry (10_state.md R12, 30_encoding.md R56). -/
def legalSig (k : BitVec 8) : Bool := decide (1 ≤ k.toNat) && decide (k.toNat ≤ 32)

/-- An entry on the boundary: `sig` in bits 39:32, `value` in bits 31:0 (30_encoding.md R56). -/
def entryBits (e : Entry) : BitVec 40 := e.sig ++ e.value

/-- The entry 40 boundary bits stand for; a tag of 0 or above 32 is not an entry (30_encoding.md R56). -/
def entryOfBits (w : BitVec 40) : Option Entry :=
  let e : Entry := { value := w.extractLsb' 0 32, sig := w.extractLsb' 32 8 }
  if legalSig e.sig then some e else none

end Sys2Proof
end

