-- ==== Sys2Proof/Machine/State.lean ====
section
/-! DEFINITION. The machine's state as plain data, and the reasons a step can stop. The unit itself keeps nothing between
commands (10_state.md R20 to R24): the fields are the command in flight (R25), what the host and the environment do and
have received (70_reset_and_hazards.md R163, R164), the sink (10_state.md R26) and the parameters (00_scope.md R7). -/

namespace Sys2Proof.Machine

/-- The two errors, and there is no other (60_exceptions.md R130). -/
inductive CodecError where
  /-- The bit length of an `ENCODE` operand is not a multiple of 8 (60_exceptions.md R131). -/
  | invalidLength
  /-- The explicitly supplied block size is not acceptable (60_exceptions.md R132). -/
  | invalidArgument
  deriving DecidableEq, Repr

/-- The status of a response (30_encoding.md R58). Its 2-bit code is in Flags.lean. -/
inductive Status where
  | ok
  | error (e : CodecError)
  deriving DecidableEq, Repr

/-- The result sequence of a response (30_encoding.md R55): `OB`, `OW`, or nothing (`DUMP`). -/
inductive Result where
  | bytes (ob : List Byte)
  | bits (ow : List Entry)
  | nothing
  deriving DecidableEq, Repr

/-- A response and the call site it goes back to (30_encoding.md R58, 20_memory.md R44). -/
structure Response where
  site : Nat
  status : Status
  result : Result
  deriving DecidableEq, Repr

/-- One command as the host issues it, taken by value (10_state.md R25): the command word, the two input index spaces
`IW` and `IB` of 20_memory.md R34, of which a command reads the one that 30_encoding.md R55 gives it, and the call site it comes from (log
entries 3 and 12). -/
structure Command where
  site : Nat
  word : CmdWord
  iw : List Entry
  ib : List Byte
  deriving DecidableEq, Repr

/-- What the host and the environment can do (70_reset_and_hazards.md R164). -/
inductive HostAction where
  /-- Issue a command and wait for its response. -/
  | issue (c : Command)
  /-- Issue a command and reset the unit before it has given its response (70_reset_and_hazards.md R151). The host's duties
  hold for this command too (log entry 27). -/
  | issueThenReset (c : Command)
  /-- Reset the unit between commands (70_reset_and_hazards.md R150). -/
  | reset
  /-- The environment attaches or removes the sink (10_state.md R26). -/
  | setSink (present : Bool)
  deriving DecidableEq, Repr

/-- A text record of the sink (10_state.md R26). -/
abbrev Record := List Char

/-- The state of the unit, its host and its environment. -/
structure State where
  /-- The parameters of 00_scope.md R7; no step changes them. -/
  config : Config
  /-- What the host and the environment do next, earliest first (70_reset_and_hazards.md R163). -/
  host : List HostAction
  /-- `CMD` with its operand: the command issued and not yet answered (10_state.md R25, R27). -/
  inFlight : Option Command
  /-- The responses given so far, earliest first (70_reset_and_hazards.md R163). -/
  responses : List Response
  /-- `SINK` (10_state.md R26). -/
  sink : List Record
  /-- `SINK_PRESENT` (10_state.md R26). -/
  sinkPresent : Bool
  deriving DecidableEq, Repr

/-- Stops of the model that no source describes. -/
inductive Fault where
  /-- A meaning was asked to run although no command is in flight, so there is no operand (10_state.md R27). Raised by the
  meanings, never by a step. Safe: the model stops where the unit has nothing to do (log entry 10). -/
  | noCommandInFlight
  deriving DecidableEq, Repr

/-- Inputs for which no source defines the unit's behaviour: "a model must give such a step no meaning"
(60_exceptions.md R139). -/
inductive Refusal where
  /-- An instruction without a meaning. Raised by no arm of exec: every instruction has its meaning. Safe. -/
  | notModelled (mnemonic : String)
  /-- The command word is invalid (30_encoding.md R59; U2). Raised by a step before any meaning runs. Safe. -/
  | invalidCommand (why : Reject)
  /-- The operand of `ENCODE` breaks W1 or W2 of 10_state.md R14 (U1). Raised by `ENCODE`. Safe. -/
  | illFormedBitArray
  /-- The operand, or the result, is longer than `MAXLEN` (20_memory.md R39; U3). Raised by every command. Safe. -/
  | beyondMaxLen
  deriving DecidableEq, Repr

/-- After reset no command is in flight and none of its values exists (10_state.md R27); the parameters have this spec's
values (00_scope.md R7). `SINK` and `SINK_PRESENT` are not the unit's; they start as in 95_test_vectors.md Part 3 (log entry 4). The
host has not issued anything (log entry 2). -/
def State.reset : State :=
  { config := specConfig, host := [], inFlight := none, responses := [], sink := [], sinkPresent := true }

end Sys2Proof.Machine
end

