-- ==== Sys2Proof/Machine/Ops.lean ====
section
/-! DEFINITION. The shared operations: reading and writing a buffer, the byte lanes of a word, issuing a command, giving
its response, raising an error, resetting. -/

namespace Sys2Proof.Machine

/-! ### Buffers and byte lanes -/

/-- The bytes of a sequence as one big-endian value, the first byte on top (20_memory.md R30), in the low bits of a word. -/
def bigEndian (bs : List Byte) : Word :=
  bs.foldl (fun acc b => (acc <<< 8) ||| b.setWidth 32) 0#32

/-- `MemRead(addr, n)` for `n` in 1..4 and `addr + n <= len(IB)` (00_scope.md R8), zero-extended to a word. -/
def memRead (ib : List Byte) (addr n : Nat) : Word := bigEndian ((ib.drop addr).take n)

/-- Byte `j` of a word, `v[31-8j : 24-8j]`, for `j` in 0..3 (00_scope.md R8). -/
def byteOfWord (v : Word) (j : Nat) : Byte := v.extractLsb' (24 - 8 * j) 8

/-- `bytes4(v)`: the four bytes of a word, most significant first (20_memory.md R32). -/
def bytes4 (v : Word) : List Byte := [byteOfWord v 0, byteOfWord v 1, byteOfWord v 2, byteOfWord v 3]

/-- `MemWrite(addr, n, v)` for `n` in 1..4 and `addr + n <= len(OB)` (00_scope.md R8): the `n` low bytes of `v`, most
significant first, replace the bytes at `addr`. -/
def memWrite (ob : List Byte) (addr n : Nat) (v : Word) : List Byte :=
  ob.take addr ++ (bytes4 v).drop (4 - n) ++ ob.drop (addr + n)

/-- `word_of(b0, ..., b(r-1))` for `r` in 1..4: byte `t` in bits `31-8t : 24-8t`, every other bit 0 (20_memory.md R33). -/
def wordOf (bs : List Byte) : Word := bigEndian bs <<< (32 - 8 * bs.length)

/-- `zeros(n)` (00_scope.md R8). -/
def zeros (n : Nat) : List Byte := List.replicate n 0#8

/-- The number of entries or bytes of a result; a command without a result has length 0. -/
def Result.length : Result → Nat
  | .bytes ob => ob.length
  | .bits ow => ow.length
  | .nothing => 0

/-! ### The life of a command -/

/-- The host and the environment have taken an action; `rest` is still to come. -/
def State.advance (s : State) (rest : List HostAction) : State := { s with host := rest }

/-- The unit takes a command, word and operand, by value (10_state.md R25). -/
def State.issue (s : State) (c : Command) : State := { s with inFlight := some c }

/-- Reset of the unit: a command in flight is abandoned, without a response or any part of its result
(70_reset_and_hazards.md R150, R151); there is nothing else to set (10_state.md R27). -/
def State.resetUnit (s : State) : State := { s with inFlight := none }

/-- What becomes of the command in flight in `s` when a reset abandons it, `outcome` being what it would have come to: it
leaves no response and no part of its result (70_reset_and_hazards.md R151), and no record, since a `DUMP` appends it in the
step that answers (log entry 9); but a command that must be refused
(60_exceptions.md R139) is refused all the same. Which of the two rules holds when both apply is the model's choice (log
entry 27, DESIGN CHOICE, safe). -/
def State.abandon (s : State) (outcome : Host.Outcome State Fault Refusal) : Host.Outcome State Fault Refusal :=
  match outcome with
  | .next _ => .next s.resetUnit
  | .fault f => .fault f
  | .refused r => .refused r

/-- The environment attaches or removes the sink (10_state.md R26). -/
def State.attach (s : State) (present : Bool) : State := { s with sinkPresent := present }

/-- Append one whole record to `SINK` (43_dump.md R101). -/
def State.emit (s : State) (r : Record) : State := { s with sink := s.sink ++ [r] }

/-- The command in flight ends with its response, which goes to the call site that issued it (30_encoding.md R58,
20_memory.md R42); nothing of the command remains in the unit (10_state.md R24). -/
def State.respond (s : State) (status : Status) (result : Result) : State :=
  match s.inFlight with
  | none => s
  | some c =>
    { s with inFlight := none, responses := s.responses ++ [{ site := c.site, status := status, result := result }] }

/-- Error entry (60_exceptions.md R136): the response carries the error's code and an empty result, and nothing else
happens. There is nothing to save, no vector, and no return (R137). Only `ENCODE` and `PAD` raise, whose result is a byte
buffer (30_encoding.md R55). -/
def State.raise (s : State) (e : CodecError) : State := s.respond (.error e) (.bytes [])

/-- The end of every command: the error raised, or the response `OK` with the result. A result beyond `MAXLEN` is
refused (20_memory.md R39). -/
def State.conclude (s : State) (outcome : Except CodecError Result) : Host.Outcome State Fault Refusal :=
  match outcome with
  | .error e => .next (s.raise e)
  | .ok result =>
    if admitsLength s.config result.length then .next (s.respond .ok result) else .refused .beyondMaxLen

/-- The start of every command: its operand, of length `len`, must be within `MAXLEN` (20_memory.md R39). -/
def State.withOperand (s : State) (len : Command → Nat) (run : Command → Host.Outcome State Fault Refusal) :
    Host.Outcome State Fault Refusal :=
  match s.inFlight with
  | none => .fault .noCommandInFlight
  | some c => if admitsLength s.config (len c) then run c else .refused .beyondMaxLen

end Sys2Proof.Machine
end

