-- ==== Sys2Proof/Machine/Operands.lean ====
section
/-! DEFINITION. The operands of the commands: well-formed bit arrays, their length and the bit string they stand for
(10_state.md R14 to R17), and the padding parameters (42_pad.md R91, R92). -/

namespace Sys2Proof.Machine

/-! ### Bit arrays -/

/-- W1: every entry but the last is a full word (10_state.md R14). -/
def fullButLast (a : List Entry) : Bool := a.dropLast.all fun e => decide (e.sig = 32#8)

/-- W2: the last entry, if there is one, has 1 to 32 significant bits (10_state.md R14). -/
def lastTagLegal (a : List Entry) : Bool := a.getLast?.all fun e => legalSig e.sig

/-- The bits of a word below its `k` most significant ones: `(1 << (32-k)) - 1` (10_state.md R16). -/
def lowMask (k : Nat) : Word := (1#32 <<< (32 - k)) - 1#32

/-- W3: the bits below the significant ones are 0 (10_state.md R14). -/
def lowBitsZero (a : List Entry) : Bool := a.all fun e => decide (e.value &&& lowMask e.sig.toNat = 0#32)

/-- The bit arrays `ENCODE` admits: W1 and W2. W3 is not asked for, as 10_state.md R14 allows (log entry 6). -/
def admissible (a : List Entry) : Bool := fullButLast a && lastTagLegal a

/-- `wf(a)`: W1, W2 and W3 (10_state.md R14). -/
def wf (a : List Entry) : Bool := admissible a && lowBitsZero a

/-- `bitLength(a)` (10_state.md R15). It has a meaning for admissible arrays only; no command applies it to another. -/
def bitLength (a : List Entry) : Nat :=
  match a.getLast? with
  | none => 0
  | some e => 32 * (a.length - 1) + e.sig.toNat

/-- `makePartial(k, v)`: the top `k` bits of `v`, the low bits cleared, the tag `k` (10_state.md R16). It is not defined
for `k` outside 1..31, and the unit never calls it so (U7). -/
def makePartial (k : Nat) (v : Word) : Option Entry :=
  if 1 ≤ k ∧ k ≤ 31 then some { value := v &&& ~~~(lowMask k), sig := BitVec.ofNat 8 k } else none

/-- The significant bits of an entry, bit 31 first (10_state.md R17). -/
def entryBitString (e : Entry) : List Bool := (List.range e.sig.toNat).map fun t => e.value.getMsbD t

/-- `bits(a)`: the bit string of a bit array (10_state.md R17). -/
def bits (a : List Entry) : List Bool := a.flatMap entryBitString

/-- The bits of a byte buffer, each byte most significant bit first (41_decode.md R84). -/
def bufferBits (b : List Byte) : List Bool := b.flatMap fun x => (List.range 8).map fun t => x.getMsbD t

/-! ### Padding parameters -/

/-- `resolve_pe` (42_pad.md R91). -/
def resolvePe : Option Bool → Bool
  | none => defaultPe
  | some p => p

/-- `resolve_bs` (42_pad.md R91): the block size in bytes, or `InvalidArgument`. -/
def resolveBs (policy : ZeroBsPolicy) : Option Int → Except CodecError Nat
  | none => .ok defaultBs
  | some b =>
    if b < 0 then .error .invalidArgument
    else if b = 0 then
      match policy with
      | .default16 => .ok defaultBs
      | .invalidArgument => .error .invalidArgument
    else .ok b.toNat

/-- `newLen`: the length after padding (42_pad.md R92). -/
def paddedLength (p : Bool) (m L : Nat) : Nat :=
  if p = false ∨ L % m = 0 then L else L + (m - L % m)

end Sys2Proof.Machine
end

