-- ==== Sys2Proof/Machine/DecodeCommand.lean ====
section
/-! DEFINITION. The `DECODE` command (41_decode.md). -/

namespace Sys2Proof.Machine

/-- The full entry of the 4-byte group `j` (41_decode.md R81). -/
def fullEntry (ib : List Byte) (j : Nat) : Entry := { value := memRead ib (4 * j) 4, sig := 32#8 }

/-- The partial entry of the `n mod 4` trailing bytes, which go to the top byte positions (41_decode.md R82); none when
there are no trailing bytes. -/
def tailEntry (ib : List Byte) : Option Entry :=
  let q := ib.length / 4
  let r := ib.length % 4
  if r ≠ 0 then makePartial (8 * r) (memRead ib (4 * q) r <<< (32 - 8 * r)) else none

/-- `DECODE(IB)` (41_decode.md R80); the empty buffer gives the empty array (R83). -/
def decodeBytes (ib : List Byte) : List Entry :=
  (List.range (ib.length / 4)).map (fullEntry ib) ++ (tailEntry ib).toList

/-- `DECODE` (41_decode.md R80). It never fails and touches neither `IB` nor `SINK` (R86). -/
def execDecode (s : State) : Host.Outcome State Fault Refusal :=
  s.withOperand (fun c => c.ib.length) fun c => s.conclude (.ok (.bits (decodeBytes c.ib)))

end Sys2Proof.Machine
end

