-- ==== Sys2Proof/Machine/Dump.lean ====
section
/-! DEFINITION. The `DUMP` command (43_dump.md). The characters of the text are the spec's decisions D16 and D17 (log
entry 11). -/

namespace Sys2Proof.Machine

/-- One hexadecimal digit, `0-9` and `A-F` (43_dump.md R100). -/
def hexDigit (d : Nat) : Char := if d < 10 then Char.ofNat (48 + d) else Char.ofNat (55 + d)

/-- `HEX2(b)`: two digits (43_dump.md R100). -/
def hex2 (b : Nat) : List Char := [hexDigit (b / 16 % 16), hexDigit (b % 16)]

/-- `HEX4(g)`: four digits (43_dump.md R100). -/
def hex4 (g : Nat) : List Char := hex2 (g / 256) ++ hex2 (g % 256)

/-- The hexadecimal digits of `n`, at most `fuel` of them, without leading zeros. -/
def hexDigits : Nat → Nat → List Char
  | 0, _ => []
  | fuel + 1, n => if n < 16 then [hexDigit n] else hexDigits fuel (n / 16) ++ [hexDigit (n % 16)]

/-- `HEX(i)`: a natural number in hexadecimal, no leading zeros, `0` for 0 (43_dump.md R100). -/
def hexNat (n : Nat) : List Char := hexDigits (n + 1) n

/-- What stands before the group at index `i`: at every 16th byte a newline, the offset and a tab (43_dump.md R104), else
one space (R102). -/
def groupLead (i : Nat) : List Char := if i % 16 = 0 then '\n' :: (hexNat i ++ ['\t']) else [' ']

/-- The group at the even index `i`: 4 digits for two bytes (43_dump.md R102), 2 digits for a last byte alone (R103). -/
def groupText (ib : List Byte) (i : Nat) : List Char :=
  if i + 1 < ib.length then hex4 (memRead ib i 2).toNat else hex2 (memRead ib i 1).toNat

/-- `render(IB)` (43_dump.md R100): the loop's index takes the values 0, 2, 4, ... below `len(IB)`. -/
def render (ib : List Byte) : Record :=
  (List.range ((ib.length + 1) / 2)).flatMap fun k => groupLead (2 * k) ++ groupText ib (2 * k)

/-- `DUMP` (43_dump.md R100): one record when the sink is present, none when it is absent (R101); always `OK` (R105). -/
def execDump (s : State) : Host.Outcome State Fault Refusal :=
  s.withOperand (fun c => c.ib.length) fun c =>
    (if s.sinkPresent then s.emit (render c.ib) else s).conclude (.ok .nothing)

end Sys2Proof.Machine
end

