-- ==== Sys2Proof/Machine/Pad.lean ====
section
/-! DEFINITION. The `PAD` command (42_pad.md). -/

namespace Sys2Proof.Machine

/-- `PAD(pe_opt, bs_opt, IB)` (42_pad.md R90), its tests in the order of R93: the parameters first, then the empty buffer
(R94), then the length (R92), then the zero fill (R95). -/
def padBytes (cfg : Config) (pe : Option Bool) (bs : Option Int) (ib : List Byte) : Except CodecError (List Byte) :=
  match resolveBs cfg.zeroBsPolicy bs with
  | .error e => .error e
  | .ok m =>
    if ib.length = 0 then .ok []
    else .ok (ib ++ zeros (paddedLength (resolvePe pe) m ib.length - ib.length))

/-- `PAD` (42_pad.md R90). It touches neither `IB` nor `SINK` (R96). -/
def execPad (pe : Option Bool) (bs : Option Int) (s : State) : Host.Outcome State Fault Refusal :=
  s.withOperand (fun c => c.ib.length) fun c =>
    s.conclude ((padBytes s.config pe bs c.ib).map Result.bytes)

end Sys2Proof.Machine
end

