-- ==== Sys2Proof/Machine/Encode.lean ====
section
/-! DEFINITION. The `ENCODE` command (40_encode.md). It uses the operation of `PAD`, the one dependency between the
operations (00_scope.md R2). -/

namespace Sys2Proof.Machine

/-- `full`: every entry as its 4 bytes, in entry order; the tags take no part (40_encode.md R71). -/
def materialize (iw : List Entry) : List Byte := iw.flatMap fun e => bytes4 e.value

/-- `trunc`: the first `totalBits / 8` bytes of `full` (40_encode.md R74). -/
def truncated (iw : List Entry) : List Byte := (materialize iw).take (bitLength iw / 8)

/-- `ENCODE(pe_opt, bs_opt, IW)` for an admissible operand (40_encode.md R70), its tests in the order of R77: the empty
array (R73), the bit length (R72), then whatever `PAD` tests (R76). -/
def encodeBytes (cfg : Config) (pe : Option Bool) (bs : Option Int) (iw : List Entry) :
    Except CodecError (List Byte) :=
  if iw.length = 0 then .ok []
  else if bitLength iw % 8 ≠ 0 then .error .invalidLength
  else padBytes cfg pe bs (truncated iw)

/-- `ENCODE` (40_encode.md R70). An operand that breaks W1 or W2 is refused (U1). It touches neither `IW` nor `SINK` (R78). -/
def execEncode (pe : Option Bool) (bs : Option Int) (s : State) : Host.Outcome State Fault Refusal :=
  s.withOperand (fun c => c.iw.length) fun c =>
    if admissible c.iw then s.conclude ((encodeBytes s.config pe bs c.iw).map Result.bytes)
    else .refused .illFormedBitArray

end Sys2Proof.Machine
end

