-- ==== Sys2Proof/Machine/Dispatch.lean ====
section
/-! DEFINITION. One arm for each command (00_scope.md R2): a direct call of its meaning. -/

namespace Sys2Proof.Machine

def exec (i : Instr) (s : State) : Host.Outcome State Fault Refusal :=
  match i with
  | .encode pe bs => Sys2Proof.Machine.execEncode pe bs s
  | .decode => Sys2Proof.Machine.execDecode s
  | .pad pe bs => Sys2Proof.Machine.execPad pe bs s
  | .dump => Sys2Proof.Machine.execDump s

end Sys2Proof.Machine
end

