-- ==== Sys2Proof/Machine/Fetch.lean ====
section
/-! DEFINITION. How a command reaches the unit: there is no program counter and no instruction memory; the host hands over
one command at a time (10_state.md R21, 70_reset_and_hazards.md R164). -/

namespace Sys2Proof.Machine

/-- What a step finds to do. -/
inductive Fetched where
  /-- No command to run: the state after the host's or the environment's action, or after waiting. -/
  | settled (s : State)
  /-- A command is in flight in `s`, with its command word. -/
  | command (word : CmdWord) (s : State)
  /-- A command is in flight in `s`, with its command word, and a reset abandons it before its response. -/
  | abandoned (word : CmdWord) (s : State)
  deriving DecidableEq, Repr

/-- The next thing that happens (70_reset_and_hazards.md R164): a command in flight is executed; otherwise the host or the
environment takes its next action; with none left the unit waits (10_state.md R27). A command that a reset abandons is
fetched like any other, since the host owes it a valid word and an admitted operand too (log entry 27). -/
def fetch (s : State) : Fetched :=
  match s.inFlight with
  | some c => .command c.word s
  | none =>
    match s.host with
    | [] => .settled s
    | .issue c :: rest => .command c.word ((s.advance rest).issue c)
    | .issueThenReset c :: rest => .abandoned c.word ((s.advance rest).issue c)
    | .reset :: rest => .settled (s.advance rest).resetUnit
    | .setSink present :: rest => .settled ((s.advance rest).attach present)

/-- The command a fetched word stands for; an invalid word is refused (30_encoding.md R59; U2). -/
def decodeFetched (word : CmdWord) (s : State) : Except Refusal Instr :=
  match decodeCmd s.config.hasDump word with
  | .ok i => .ok i
  | .error why => .error (.invalidCommand why)

/-- The state in which the command word `word` is in flight, with the operand that is in flight already, or empty input
spaces when there is none. -/
def State.withWord (s : State) (word : CmdWord) : State :=
  match s.inFlight with
  | some c => s.issue { c with word := word }
  | none => s.issue { site := 0, word := word, iw := [], ib := [] }

end Sys2Proof.Machine
end

