-- ==== Sys2Proof/Machine/Run.lean ====
section
/-! DEFINITION. What a fetched command comes to: its word is decoded and its meaning runs. -/

namespace Sys2Proof.Machine

/-- The command in flight in `s`, with the command word `word`: a valid word runs the meaning of its command, an invalid one
is refused (30_encoding.md R59, R61). -/
def runWord (word : CmdWord) (s : State) : Host.Outcome State Fault Refusal :=
  match decodeFetched word s with
  | .ok i => exec i s
  | .error r => .refused r

end Sys2Proof.Machine
end

