-- ==== Sys2Proof/Machine/Step.lean ====
section
/-! DEFINITION. One step: one action of the host or the environment, and where that is a command the whole command
(00_scope.md R5). -/

namespace Sys2Proof.Machine

/-- One step of the machine (00_scope.md R5, R6). -/
def step (s : State) : Host.Outcome State Fault Refusal :=
  match fetch s with
  | .settled t => .next t
  | .command word t => runWord word t
  | .abandoned word t => t.abandon (runWord word t)

/-- `s` with the command word `w` handed to the unit, so that the next step runs it (log entry 15). -/
def State.withFetchWord (s : State) (nbits w : Nat) : State := s.withWord (BitVec.ofNat 40 (w % 2 ^ nbits))

end Sys2Proof.Machine
end

