-- ==== Sys2Proof/Machine/Flags.lean ====
section
/-! DEFINITION. The unit has no flags (10_state.md R22); the one status it produces is the status field of a response. -/

namespace Sys2Proof.Machine

/-- The 2-bit code of a status (30_encoding.md R58). -/
def Status.code : Status → BitVec 2
  | .ok => 0b00#2
  | .error .invalidLength => 0b01#2
  | .error .invalidArgument => 0b10#2

/-- The status a 2-bit code names; `11` is never produced (30_encoding.md R58). -/
def statusOfCode (c : BitVec 2) : Option Status :=
  if c = 0b00#2 then some .ok
  else if c = 0b01#2 then some (.error .invalidLength)
  else if c = 0b10#2 then some (.error .invalidArgument)
  else none

end Sys2Proof.Machine
end

