-- ==== Sys2Proof/Safety.lean ====
section
/-! DEFINITION. The terms claims are stated in: a command within the contract (70_reset_and_hazards.md R165), a state with
a command answered, a legal response, and the line view of a dump. No step uses these. -/

namespace Sys2Proof.Machine

/-- The state after the command `c` has been answered, everything else as in `s`: no command in flight, one more response,
to the site of `c` (60_exceptions.md R136, 10_state.md R24). -/
def State.answered (s : State) (c : Command) (status : Status) (result : Result) : State :=
  { s with inFlight := none, responses := s.responses ++ [{ site := c.site, status := status, result := result }] }

/-- `k` steps, up to the first stop. -/
def State.run : Nat → State → Host.Outcome State Fault Refusal
  | 0, s => .next s
  | k + 1, s =>
    match step s with
    | .next t => State.run k t
    | .fault f => .fault f
    | .refused r => .refused r

/-- `c` is the command the next step runs: it is in flight, or no command is and the host issues it next. -/
def State.nextCommand (s : State) (c : Command) : Prop :=
  s.inFlight = some c ∨ (s.inFlight = none ∧ s.host.head? = some (.issue c))

/-- `c` is the command the next step abandons: no command is in flight, and the host issues `c` and resets the unit before
its response (70_reset_and_hazards.md R151). -/
def State.abandonedCommand (s : State) (c : Command) : Prop :=
  s.inFlight = none ∧ s.host.head? = some (.issueThenReset c)

/-- The outcome of a command, if it gives a byte buffer, is within `MAXLEN` (20_memory.md R39). -/
def resultAdmitted (cfg : Config) : Except CodecError (List Byte) → Bool
  | .ok ob => admitsLength cfg ob.length
  | .error _ => true

/-- The operand that `i` reads is within `MAXLEN` (20_memory.md R39; which operand, 30_encoding.md R55). -/
def Command.operandFits (cfg : Config) (c : Command) : Instr → Bool
  | .encode _ _ => admitsLength cfg c.iw.length
  | .decode => admitsLength cfg c.ib.length
  | .pad _ _ => admitsLength cfg c.ib.length
  | .dump => admitsLength cfg c.ib.length

/-- The operand of an `ENCODE` meets W1 and W2 (10_state.md R14; W3 is not asked for, log entry 6). -/
def Command.operandAdmissible (c : Command) : Instr → Bool
  | .encode _ _ => admissible c.iw
  | .decode => true
  | .pad _ _ => true
  | .dump => true

/-- The result of `i` is within `MAXLEN`; only `ENCODE` and `PAD` can lengthen (20_memory.md R39; log entry 20). -/
def Command.resultFits (cfg : Config) (c : Command) : Instr → Bool
  | .encode pe bs => resultAdmitted cfg (encodeBytes cfg pe bs c.iw)
  | .decode => true
  | .pad pe bs => resultAdmitted cfg (padBytes cfg pe bs c.ib)
  | .dump => true

/-- The host has kept its duties for `c`: the command word is valid, the operand of an `ENCODE` meets W1 and W2, and the
lengths are within `MAXLEN` (70_reset_and_hazards.md R153, R155, R165; 60_exceptions.md R139). -/
def Command.withinContract (cfg : Config) (c : Command) : Bool :=
  match decodeCmd cfg.hasDump c.word with
  | .error _ => false
  | .ok i => c.operandFits cfg i && c.operandAdmissible i && c.resultFits cfg i

/-- A response the unit may give: a bit array it produces is well-formed (10_state.md R14), and with an error the result
is empty (30_encoding.md R58). -/
def Response.legal (r : Response) : Bool :=
  match r.status, r.result with
  | .ok, .bits ow => wf ow
  | .ok, .bytes _ => true
  | .ok, .nothing => true
  | .error _, .bytes ob => ob.isEmpty
  | .error _, .bits _ => false
  | .error _, .nothing => false

/-- Every response recorded so far is one the unit may give. -/
def State.responsesLegal (s : State) : Bool := s.responses.all Response.legal

/-- The host action issues a `DUMP` (its command word decodes to `DUMP`), whether or not a reset abandons it. -/
def HostAction.isDump (hasDump : Bool) : HostAction → Bool
  | .issue c => decide (decodeCmd hasDump c.word = .ok .dump)
  | .issueThenReset c => decide (decodeCmd hasDump c.word = .ok .dump)
  | .reset => false
  | .setSink _ => false

/-- The groups of one line of a dump: two bytes in 4 digits, a last byte alone in 2 (43_dump.md R102, R103). -/
def dumpGroups : List Byte → List (List Char)
  | [] => []
  | [b] => [hex2 b.toNat]
  | b :: b' :: rest => (hex2 b.toNat ++ hex2 b'.toNat) :: dumpGroups rest

/-- Line `k` of a dump: a newline, the offset of its first byte, a tab, and its groups with one space between
(43_dump.md R102, R104). -/
def dumpLine (ib : List Byte) (k : Nat) : List Char :=
  '\n' :: (hexNat (16 * k) ++ '\t' :: List.intercalate [' '] (dumpGroups ((ib.drop (16 * k)).take 16)))

/-- The value of an upper-case hexadecimal digit, `none` for any other character (43_dump.md R100). -/
def digitValue (ch : Char) : Option Nat :=
  if 48 ≤ ch.toNat ∧ ch.toNat ≤ 57 then some (ch.toNat - 48)
  else if 65 ≤ ch.toNat ∧ ch.toNat ≤ 70 then some (ch.toNat - 55)
  else none

end Sys2Proof.Machine
end

