-- ==== Sys2Proof/Certificates/Slice0/Obligations.lean ====
section
/-! DEFINITION. The statements for the provers, from the numbered rules of spec/. -/

open Sys2Proof Sys2Proof.Machine

/-! ### The command word and the entry (30_encoding.md) -/

/-- R61: decoding the word of a command gives the command back, and encoding the command of a valid word gives the word
back. `DUMP` exists only with `HAS_DUMP`. -/
def Obligations.CommandWordRoundTrip : Prop :=
  (∀ (hasDump : Bool) (i : Instr), WellFormed i → (i = .dump → hasDump = true) →
    decodeCmd hasDump (encodeCmd i) = .ok i) ∧
  (∀ (hasDump : Bool) (c : CmdWord) (i : Instr), decodeCmd hasDump c = .ok i → encodeCmd i = c ∧ WellFormed i)

/-- R59: a word decodes exactly when V1 to V5 hold. -/
def Obligations.WordValidExactlyByV1ToV5 : Prop :=
  ∀ (hasDump : Bool) (c : CmdWord),
    (∃ i, decodeCmd hasDump c = .ok i) ↔
      (c.extractLsb' 5 3 = 0#3 ∧
        (c.getLsbD 2 = false → c.getLsbD 3 = false) ∧
        (c.getLsbD 4 = false → c.extractLsb' 8 32 = 0#32) ∧
        (c.extractLsb' 0 2 = 1#2 ∨ c.extractLsb' 0 2 = 3#2 → c.extractLsb' 2 38 = 0#38) ∧
        (c.extractLsb' 0 2 = 3#2 → hasDump = true))

/-- R50 to R53, R61: where each parameter of a decoded command stands in its word; the encoder is the same layout read the
other way: `{BS, 000, BSV, PE, PEV, OP}`. -/
def Obligations.CommandWordLayout : Prop :=
  ∀ (pe : Option Bool) (bs : Option Int), blockSizeFits bs = true →
    (∀ c, c = encodeCmd (.encode pe bs) ∨ c = encodeCmd (.pad pe bs) →
      c.extractLsb' 8 32 = BitVec.ofInt 32 (bs.getD 0) ∧ (c.extractLsb' 8 32).toInt = bs.getD 0 ∧
      c.extractLsb' 5 3 = 0#3 ∧ c.getLsbD 4 = bs.isSome ∧ c.getLsbD 3 = pe.getD false ∧ c.getLsbD 2 = pe.isSome) ∧
    (encodeCmd (.encode pe bs)).extractLsb' 0 2 = 0#2 ∧ (encodeCmd (.pad pe bs)).extractLsb' 0 2 = 2#2

/-- R62 and the vectors of 95_test_vectors.md 2.1: some words written out, and what they stand for. -/
def Obligations.SpecWordsDecode : Prop :=
  decodeCmd true 0x0000000814#40 = .ok (.encode (some false) (some 8)) ∧
  decodeCmd true 0xFFFFFFFB1C#40 = .ok (.encode (some true) (some (-5))) ∧
  decodeCmd true 0x0000000001#40 = .ok .decode ∧
  decodeCmd true 0x8000000012#40 = .ok (.pad none (some (-2147483648))) ∧
  decodeCmd true 0x000000041E#40 = .ok (.pad (some true) (some 4)) ∧
  decodeCmd true 0x0000000003#40 = .ok .dump ∧
  decodeCmd true 0x0000001000#40 = .error .blockSizeNotSupplied

/-- R56: an entry is `sig` in bits 39:32 over `value` in bits 31:0; a tag of 0 or above 32 is no entry. -/
def Obligations.EntryBoundaryForm : Prop :=
  (∀ w : BitVec 40, entryOfBits w =
    if 1 ≤ (w.extractLsb' 32 8).toNat ∧ (w.extractLsb' 32 8).toNat ≤ 32
    then some { value := w.extractLsb' 0 32, sig := w.extractLsb' 32 8 } else none) ∧
  (∀ e : Entry, 1 ≤ e.sig.toNat → e.sig.toNat ≤ 32 → entryOfBits (entryBits e) = some e) ∧
  (∀ (w : BitVec 40) (e : Entry), entryOfBits w = some e → entryBits e = w)

/-! ### Bit arrays, bytes and words (00_scope.md, 10_state.md, 20_memory.md) -/

/-- R14: the model's checks are W1, W2 and W3 as the rule writes them, index by index. -/
def Obligations.WellFormedIsW1W2W3 : Prop :=
  ∀ a : List Entry,
    (admissible a = true ↔
      (∀ i e, i + 1 < a.length → a[i]? = some e → e.sig = 32#8) ∧
      (∀ e, a[a.length - 1]? = some e → 1 ≤ e.sig.toNat ∧ e.sig.toNat ≤ 32)) ∧
    (wf a = true ↔ admissible a = true ∧
      ∀ (i : Nat) (e : Entry), a[i]? = some e → ∀ k, k < 32 - e.sig.toNat → e.value.getLsbD k = false)

/-- R15: the formula, and that on an admissible array it is the sum of all tags (the spec's own inference in R15). -/
def Obligations.BitLengthIsSumOfTags : Prop :=
  bitLength [] = 0 ∧
  (∀ a e, a.getLast? = some e → bitLength a = 32 * (a.length - 1) + e.sig.toNat) ∧
  (∀ a, admissible a = true → bitLength a = (a.map fun e => e.sig.toNat).sum)

/-- R16: `makePartial` keeps the top `k` bits, clears the others, and is defined for 1 to 31 only. -/
def Obligations.MakePartialKeepsTopBits : Prop :=
  ∀ (k : Nat) (v : Word),
    (1 ≤ k ∧ k ≤ 31 → ∃ e, makePartial k v = some e ∧ e.sig.toNat = k ∧
      (∀ t, t < k → e.value.getMsbD t = v.getMsbD t) ∧ (∀ t, k ≤ t → t < 32 → e.value.getMsbD t = false)) ∧
    (k = 0 ∨ 32 ≤ k → makePartial k v = none)

/-- R17: `bits(a)` has `bitLength(a)` bits, and two well-formed arrays with the same bit string are equal. -/
def Obligations.BitStringDeterminesArray : Prop :=
  (∀ a, admissible a = true → (bits a).length = bitLength a) ∧
  (∀ a a', wf a = true → wf a' = true → bits a = bits a' → a = a')

/-- R32, R33: the byte lanes of a word, and that `word_of` and `bytes4` undo each other (the spec's own inference in R33). -/
def Obligations.WordBytesRoundTrip : Prop :=
  (∀ (v : Word) (j : Nat), j < 4 → (bytes4 v)[j]? = some ((v >>> (24 - 8 * j)).setWidth 8)) ∧
  (∀ v : Word, wordOf (bytes4 v) = v) ∧
  (∀ b0 b1 b2 b3 : Byte, bytes4 (wordOf [b0, b1, b2, b3]) = [b0, b1, b2, b3]) ∧
  (∀ bs : List Byte, 1 ≤ bs.length → bs.length ≤ 4 → bytes4 (wordOf bs) = bs ++ List.replicate (4 - bs.length) 0#8) ∧
  (∀ (ib : List Byte) (addr r : Nat), 1 ≤ r → r ≤ 4 → addr + r ≤ ib.length →
    wordOf ((ib.drop addr).take r) = memRead ib addr r <<< (32 - 8 * r))

/-- R31: a 2-byte group is the upper or the lower half of the 4-byte group that contains it. -/
def Obligations.HalfwordInsideWord : Prop :=
  ∀ (ib : List Byte) (i : Nat), i - i % 4 + 4 ≤ ib.length →
    (i % 4 = 0 → (memRead ib i 2).setWidth 16 = (memRead ib (i - i % 4) 4).extractLsb' 16 16) ∧
    (i % 4 = 2 → (memRead ib i 2).setWidth 16 = (memRead ib (i - i % 4) 4).extractLsb' 0 16)

/-- R8: `MemRead` reads back what `MemWrite` wrote, and `MemWrite` changes no other byte. -/
def Obligations.MemReadAfterMemWrite : Prop :=
  ∀ (ob : List Byte) (addr n : Nat) (v : Word), 1 ≤ n → n ≤ 4 → addr + n ≤ ob.length →
    (memWrite ob addr n v).length = ob.length ∧
    (∀ k, k < 8 * n → (memRead (memWrite ob addr n v) addr n).getLsbD k = v.getLsbD k) ∧
    (∀ k, 8 * n ≤ k → (memRead (memWrite ob addr n v) addr n).getLsbD k = false) ∧
    (∀ j, j < addr ∨ addr + n ≤ j → (memWrite ob addr n v)[j]? = ob[j]?)

/-! ### ENCODE (40_encode.md) -/

/-- R71, R74, R76: an aligned, admissible, non-empty array is answered with the leading bytes of its words, big-endian, cut
to the bit length and padded with the caller's parameters; everything else is unchanged. That `L` is at least 1 is the
spec's own inference in R74; arrays that break W3 are included (log entry 6). -/
def Obligations.EncodeAnswersTheBytes : Prop :=
  ∀ (s : State) (c : Command) (pe : Option Bool) (bs : Option Int) (last : Entry) (m L k : Nat) (trunc : List Byte),
    s.inFlight = some c → admissible c.iw = true → c.iw.getLast? = some last → last.sig.toNat % 8 = 0 →
    resolveBs s.config.zeroBsPolicy bs = .ok m →
    L = 4 * (c.iw.length - 1) + last.sig.toNat / 8 →
    k = (if pe.getD true = false ∨ L % m = 0 then 0 else m - L % m) →
    trunc = (c.iw.flatMap fun e =>
      [e.value.extractLsb' 24 8, e.value.extractLsb' 16 8, e.value.extractLsb' 8 8, e.value.extractLsb' 0 8]).take L →
    admitsLength s.config c.iw.length = true → admitsLength s.config (L + k) = true →
    trunc.length = L ∧ 8 * L = bitLength c.iw ∧ 1 ≤ L ∧
    exec (.encode pe bs) s = .next (s.answered c .ok (.bytes (trunc ++ List.replicate k 0#8)))

/-- R72, R77, R131: `InvalidLength` exactly when the array is not empty and its bit length is no multiple of 8, before any
test of the block size. The condition on the last tag is the spec's own inference in R72; arrays that break W3 are included
(log entry 6). -/
def Obligations.EncodeInvalidLengthExactly : Prop :=
  ∀ (s : State) (c : Command) (pe : Option Bool) (bs : Option Int), s.inFlight = some c → admissible c.iw = true →
    admitsLength s.config c.iw.length = true →
    ((exec (.encode pe bs) s = .next (s.answered c (.error .invalidLength) (.bytes [])) ↔
        c.iw ≠ [] ∧ bitLength c.iw % 8 ≠ 0) ∧
      (Status.error .invalidLength).code = 0b01#2 ∧
      (∀ last, c.iw.getLast? = some last → (bitLength c.iw % 8 ≠ 0 ↔ last.sig.toNat % 8 ≠ 0)))

/-- R132: `InvalidArgument` exactly when the block size is explicitly negative (or 0 under the policy `invalidArgument`),
from `PAD` whatever the buffer and `paddingEnabled` are, and from an `ENCODE` that reaches its padding pass (arrays that
break W3 included, log entry 6). -/
def Obligations.InvalidArgumentExactly : Prop :=
  ∀ (s : State) (c : Command) (pe : Option Bool) (bs : Option Int), s.inFlight = some c →
    (Status.error .invalidArgument).code = 0b10#2 ∧
    (admitsLength s.config c.ib.length = true →
      (exec (.pad pe bs) s = .next (s.answered c (.error .invalidArgument) (.bytes [])) ↔
        ∃ b, bs = some b ∧ (b < 0 ∨ (b = 0 ∧ s.config.zeroBsPolicy = .invalidArgument)))) ∧
    (admissible c.iw = true → admitsLength s.config c.iw.length = true →
      (exec (.encode pe bs) s = .next (s.answered c (.error .invalidArgument) (.bytes [])) ↔
        c.iw ≠ [] ∧ bitLength c.iw % 8 = 0 ∧
          ∃ b, bs = some b ∧ (b < 0 ∨ (b = 0 ∧ s.config.zeroBsPolicy = .invalidArgument))))

/-- R75, the spec's own inference from R71 and R74: bits below the significant ones of the operand do not reach the
response. -/
def Obligations.EncodeIgnoresInsignificantBits : Prop :=
  ∀ (s : State) (c c' : Command) (pe : Option Bool) (bs : Option Int), c'.site = c.site →
    admissible c.iw = true → c'.iw.map (fun e => e.sig) = c.iw.map (fun e => e.sig) → bits c'.iw = bits c.iw →
    exec (.encode pe bs) (s.issue c') = exec (.encode pe bs) (s.issue c)

/-- R118: the bytes kept of a partial last word are its high-order ones. -/
def Obligations.PartialWordTruncation : Prop :=
  ∀ (s : State) (c : Command) (last : Entry) (k : Nat), s.inFlight = some c → wf c.iw = true →
    c.iw.getLast? = some last → last.sig.toNat = k → (k = 8 ∨ k = 16 ∨ k = 24) →
    admitsLength s.config (4 * (c.iw.length - 1) + k / 8) = true →
    ∃ b, exec (.encode (some false) none) s = .next (s.answered c .ok (.bytes b)) ∧
      b.length = 4 * (c.iw.length - 1) + k / 8 ∧
      ∀ t, t < k / 8 → b[4 * (c.iw.length - 1) + t]? = some ((last.value >>> (24 - 8 * t)).setWidth 8)

/-! ### DECODE (41_decode.md) -/

/-- R81, R82, R83: one full entry for each 4-byte group, then one partial entry for a tail of 1 to 3 bytes, in its top
byte positions; everything else is unchanged. -/
def Obligations.DecodeAnswersTheWords : Prop :=
  ∀ (s : State) (c : Command), s.inFlight = some c → admitsLength s.config c.ib.length = true →
    ∃ ow : List Entry,
      exec .decode s = .next (s.answered c .ok (.bits ow)) ∧
      ow.length = (c.ib.length + 3) / 4 ∧
      (∀ (j : Nat) (b0 b1 b2 b3 : Byte), c.ib[4 * j]? = some b0 → c.ib[4 * j + 1]? = some b1 →
        c.ib[4 * j + 2]? = some b2 → c.ib[4 * j + 3]? = some b3 →
        ow[j]? = some { value := b0 ++ b1 ++ b2 ++ b3, sig := 32#8 }) ∧
      (∀ (q : Nat) (b0 : Byte), c.ib.length = 4 * q + 1 → c.ib[4 * q]? = some b0 →
        ow[q]? = some { value := b0 ++ 0#24, sig := 8#8 }) ∧
      (∀ (q : Nat) (b0 b1 : Byte), c.ib.length = 4 * q + 2 → c.ib[4 * q]? = some b0 → c.ib[4 * q + 1]? = some b1 →
        ow[q]? = some { value := b0 ++ b1 ++ 0#16, sig := 16#8 }) ∧
      (∀ (q : Nat) (b0 b1 b2 : Byte), c.ib.length = 4 * q + 3 → c.ib[4 * q]? = some b0 → c.ib[4 * q + 1]? = some b1 →
        c.ib[4 * q + 2]? = some b2 → ow[q]? = some { value := b0 ++ b1 ++ b2 ++ 0#8, sig := 24#8 })

/-- R84, the spec's own inference from R81 and R82: the shape of the result: well-formed, one entry for every 4 bytes
begun, 8 bits for every byte, and the bits are those of the bytes, most significant first. -/
def Obligations.DecodeResultShape : Prop :=
  ∀ (s : State) (c : Command), s.inFlight = some c → admitsLength s.config c.ib.length = true →
    ∃ ow : List Entry,
      exec .decode s = .next (s.answered c .ok (.bits ow)) ∧
      ow.length = c.ib.length / 4 + (if c.ib.length % 4 ≠ 0 then 1 else 0) ∧
      wf ow = true ∧ bitLength ow = 8 * c.ib.length ∧ bits ow = bufferBits c.ib

/-! ### PAD (42_pad.md) -/

/-- R91, R92, R94, R95: with parameters that resolve, the operand is answered with zeros appended up to the least multiple
of the block size, or as it is when padding is disabled; everything else is unchanged. The last clause is the spec's own
inference in R92, and R115 states it. -/
def Obligations.PadAppendsZeros : Prop :=
  ∀ (s : State) (c : Command) (pe : Option Bool) (bs : Option Int) (m k : Nat),
    s.inFlight = some c →
    (bs = none ∧ m = 16 ∨ bs = some 0 ∧ s.config.zeroBsPolicy = .default16 ∧ m = 16 ∨
      0 < m ∧ bs = some (m : Int)) →
    k = (if pe.getD true = false ∨ c.ib.length % m = 0 then 0 else m - c.ib.length % m) →
    admitsLength s.config c.ib.length = true → admitsLength s.config (c.ib.length + k) = true →
    exec (.pad pe bs) s = .next (s.answered c .ok (.bytes (c.ib ++ List.replicate k 0#8))) ∧
    (pe.getD true = true → c.ib.length + k = m * ((c.ib.length + m - 1) / m))

/-- R115: with padding enabled the length is the least multiple of the block size, from `PAD` and from `ENCODE`; with
padding disabled `PAD` gives its operand back. -/
def Obligations.PaddedLengthIsAligned : Prop :=
  ∀ (s : State) (c : Command) (n : Nat) (ob : List Byte), 0 < n → s.inFlight = some c →
    (exec (.pad (some true) (some (n : Int))) s = .next (s.answered c .ok (.bytes ob)) →
      ob.length = n * ((c.ib.length + n - 1) / n) ∧ ob.length % n = 0 ∧ c.ib.length ≤ ob.length ∧
        ∀ x, x % n = 0 → c.ib.length ≤ x → ob.length ≤ x) ∧
    (exec (.encode (some true) (some (n : Int))) s = .next (s.answered c .ok (.bytes ob)) →
      ob.length % n = 0 ∧ bitLength c.iw / 8 ≤ ob.length ∧
        ∀ x, x % n = 0 → bitLength c.iw / 8 ≤ x → ob.length ≤ x) ∧
    (∀ bs, exec (.pad (some false) bs) s = .next (s.answered c .ok (.bytes ob)) → ob = c.ib)

/-- R114: padding what was padded with the same parameters changes nothing, whatever the parameters are, an explicit block
size of 0 included. -/
def Obligations.PadIsIdempotent : Prop :=
  ∀ (s : State) (c : Command) (pe : Option Bool) (bs : Option Int) (ob : List Byte),
    exec (.pad pe bs) (s.issue c) = .next (s.answered c .ok (.bytes ob)) →
    ∀ d : Command, d.ib = ob →
      exec (.pad pe bs) (s.issue d) = .next (s.answered d .ok (.bytes ob))

/-- R97 and R121, the spec's own inferences from R92 and R95, and R116: `PAD` appends fewer bytes than the resolved block
size, and none exactly when padding is disabled or the length is a multiple of it; the operand is a prefix of the result. -/
def Obligations.PadBoundAndPrefix : Prop :=
  ∀ (s : State) (c : Command) (pe : Option Bool) (bs : Option Int) (m : Nat) (ob : List Byte),
    s.inFlight = some c → resolveBs s.config.zeroBsPolicy bs = .ok m →
    exec (.pad pe bs) s = .next (s.answered c .ok (.bytes ob)) →
    c.ib.length ≤ ob.length ∧ ob.length - c.ib.length ≤ m - 1 ∧ 0 < m ∧
    (ob.length = c.ib.length ↔ pe = some false ∨ c.ib.length % m = 0) ∧
    ob.take c.ib.length = c.ib ∧ (∀ x ∈ ob.drop c.ib.length, x = 0#8)

/-! ### DUMP (43_dump.md) -/

/-- R101, R105: `OK` always; one whole record when the sink is present, none when it is absent; everything else is
unchanged. -/
def Obligations.DumpAppendsOneRecord : Prop :=
  ∀ (s : State) (c : Command), s.inFlight = some c → admitsLength s.config c.ib.length = true →
    exec .dump s = .next
      { s.answered c .ok .nothing with sink := if s.sinkPresent then s.sink ++ [render c.ib] else s.sink }

/-- R102, R103, R104: the text of a dump line by line. -/
def Obligations.DumpTextByLines : Prop :=
  ∀ ib : List Byte, render ib = (List.range ((ib.length + 15) / 16)).flatMap (dumpLine ib)

/-- R100: `HEX(i)` is `i` in upper-case hexadecimal without leading zeros, and `HEX2(b)` is `b` in two digits. -/
def Obligations.HexTextIsPositional : Prop :=
  ∀ n : Nat,
    (n < 256 → (hex2 n).map digitValue = [some (n / 16), some (n % 16)]) ∧
    (∃ ds : List Nat, (hexNat n).map digitValue = ds.map some ∧ ds.foldl (fun acc d => 16 * acc + d) 0 = n) ∧
    (n ≠ 0 → (hexNat n).head? ≠ some '0') ∧ (n = 0 → hexNat n = ['0'])

/-! ### The laws of 45_laws.md -/

/-- R112: `ENCODE` without padding gives back the bytes that `DECODE` took. -/
def Obligations.RoundTripFromBytes : Prop :=
  ∀ (s : State) (c : Command), admitsLength s.config c.ib.length = true →
    ∃ w : List Entry,
      exec .decode (s.issue c) = .next (s.answered c .ok (.bits w)) ∧
      ∀ (d : Command) (bs : Option Int) (m : Nat), d.iw = w → resolveBs s.config.zeroBsPolicy bs = .ok m →
        exec (.encode (some false) bs) (s.issue d) = .next (s.answered d .ok (.bytes c.ib))

/-- R113: `DECODE` gives back the bit string of the array that `ENCODE` without padding took, with the same tags; on a
well-formed array it gives the array itself. Arrays that break W3 are included (log entry 6). -/
def Obligations.RoundTripFromBits : Prop :=
  ∀ (s : State) (c : Command), admitsLength s.config (bitLength c.iw / 8) = true → admissible c.iw = true →
    bitLength c.iw % 8 = 0 →
    ∃ b : List Byte,
      exec (.encode (some false) none) (s.issue c) = .next (s.answered c .ok (.bytes b)) ∧
      ∀ d : Command, d.ib = b →
        ∃ a' : List Entry,
          exec .decode (s.issue d) = .next (s.answered d .ok (.bits a')) ∧
          a'.length = c.iw.length ∧ a'.map (fun e => e.sig) = c.iw.map (fun e => e.sig) ∧
          bits a' = bits c.iw ∧ (wf c.iw = true → a' = c.iw)

/-- R119, the spec's own inference: encoding with any parameters that resolve is encoding without padding and then padding, and decoding the result
gives the bit string followed by zero bits, 8 for each byte appended. Arrays that break W3 are included (log entry 6). -/
def Obligations.InverseModuloPadding : Prop :=
  ∀ (s : State) (c : Command) (pe : Option Bool) (bs : Option Int) (m : Nat),
    admissible c.iw = true → bitLength c.iw % 8 = 0 → resolveBs s.config.zeroBsPolicy bs = .ok m →
    admitsLength s.config (paddedLength (pe.getD true) m (bitLength c.iw / 8)) = true →
    ∃ (b ob : List Byte) (a' : List Entry),
      exec (.encode (some false) none) (s.issue c) = .next (s.answered c .ok (.bytes b)) ∧
      exec (.encode pe bs) (s.issue c) = .next (s.answered c .ok (.bytes ob)) ∧
      (∀ d : Command, d.ib = b → exec (.pad pe bs) (s.issue d) = .next (s.answered d .ok (.bytes ob))) ∧
      (∀ d : Command, d.ib = ob → exec .decode (s.issue d) = .next (s.answered d .ok (.bits a'))) ∧
      bits a' = bits c.iw ++ List.replicate (8 * (ob.length - b.length)) false

/-- R120, the spec's own inference from R74 and R84: the lengths of the results. -/
def Obligations.ResultLengths : Prop :=
  ∀ (s : State) (c : Command),
    (∀ (bs : Option Int) (b : List Byte),
      exec (.encode (some false) bs) (s.issue c) = .next (s.answered c .ok (.bytes b)) →
      b.length = bitLength c.iw / 8) ∧
    (∀ w : List Entry, exec .decode (s.issue c) = .next (s.answered c .ok (.bits w)) →
      bitLength w = 8 * c.ib.length ∧ w.length = (c.ib.length + 3) / 4)

/-- R117, R73, R83, R94: the empty operand gives the empty result; `ENCODE` does so whatever the parameters are, `PAD` still
checks the block size. -/
def Obligations.EmptyInputIdentity : Prop :=
  ∀ (s : State) (c : Command) (pe : Option Bool) (bs : Option Int), s.inFlight = some c →
    (c.iw = [] → exec (.encode pe bs) s = .next (s.answered c .ok (.bytes []))) ∧
    (c.ib = [] → exec .decode s = .next (s.answered c .ok (.bits []))) ∧
    (∀ m, c.ib = [] → resolveBs s.config.zeroBsPolicy bs = .ok m →
      exec (.pad pe bs) s = .next (s.answered c .ok (.bytes []))) ∧
    (∀ b, c.ib = [] → bs = some b → b < 0 →
      exec (.pad pe bs) s = .next (s.answered c (.error .invalidArgument) (.bytes [])))

/-! ### Errors and refusals (60_exceptions.md) -/

/-- R133: which command can end with which status. -/
def Obligations.StatusByCommand : Prop :=
  ∀ (i : Instr) (s t : State), exec i s = .next t →
    ∃ (c : Command) (r : Response), s.inFlight = some c ∧ t.responses = s.responses ++ [r] ∧ r.site = c.site ∧
      match i with
      | .encode _ _ => ∃ ob, r.result = .bytes ob
      | .decode => r.status = .ok ∧ ∃ ow, r.result = .bits ow
      | .pad _ _ => r.status ≠ .error .invalidLength ∧ ∃ ob, r.result = .bytes ob
      | .dump => r.status = .ok ∧ r.result = .nothing

/-- R136: an error response carries its code and an empty result, and nothing else happens: no operand, no record and no
other response is touched. -/
def Obligations.ErrorEntry : Prop :=
  ∀ (i : Instr) (s t : State) (r : Response), exec i s = .next t → t.responses = s.responses ++ [r] → r.status ≠ .ok →
    r.result = .bytes [] ∧ t = { s with inFlight := none, responses := s.responses ++ [r] } ∧
    (r.status.code = 0b01#2 ∨ r.status.code = 0b10#2)

/-- R14, R39, R59, R139: a step that runs a command, or abandons one, is refused exactly when the command word is invalid,
the operand of an `ENCODE` breaks W1 or W2, or a length is beyond `MAXLEN`, and the refusal says which. The model's choices
in it: W3 is not asked for (log entry 6), which refusal is named when several conditions are broken (log entry 8), what
`MAXLEN` is held against (log entry 20), and that a command a reset abandons is refused too (log entry 27). -/
def Obligations.RefusedExactlyOutsideContract : Prop :=
  ∀ (s : State) (c : Command), s.nextCommand c ∨ s.abandonedCommand c →
    ((∃ r, step s = .refused r) ↔ c.withinContract s.config = false) ∧
    (∀ why, step s = .refused (.invalidCommand why) ↔ decodeCmd s.config.hasDump c.word = .error why) ∧
    (step s = .refused .illFormedBitArray ↔ (∃ pe bs, decodeCmd s.config.hasDump c.word = .ok (.encode pe bs)) ∧
      admissible c.iw = false ∧ admitsLength s.config c.iw.length = true) ∧
    (step s = .refused .beyondMaxLen ↔ ∃ i, decodeCmd s.config.hasDump c.word = .ok i ∧
      (c.operandFits s.config i = false ∨
        c.operandFits s.config i = true ∧ c.operandAdmissible i = true ∧ c.resultFits s.config i = false)) ∧
    (step s = .refused .beyondMaxLen → s.config.maxLen ≠ none) ∧
    (∀ mnemonic, step s ≠ .refused (.notModelled mnemonic))

/-! ### The whole machine (00_scope.md, 10_state.md, 20_memory.md, 70_reset_and_hazards.md) -/

/-- R6, R21: a command in flight, or the one the host issues next, is decoded and executed; the state the meaning sees is
the one with the command in flight. -/
def Obligations.StepRunsTheDecodedCommand : Prop :=
  ∀ (s : State) (c : Command) (i : Instr), decodeCmd s.config.hasDump c.word = .ok i →
    (s.inFlight = some c → step s = exec i s) ∧
    (∀ rest, s.inFlight = none → s.host = .issue c :: rest →
      step s = exec i { s with host := rest, inFlight := some c })

/-- R27, R150, R151, R26: what happens without a command to answer: a command within the contract that a reset abandons
leaves no response and no effect (that no `DUMP` has appended its record before the reset is the model's choice, log entry
9; R151 says no record only of one that has not), one outside it is refused as it would have been without the reset (the
model's choice, log entry 27), a reset between commands changes nothing, the environment sets `SINK_PRESENT`, and with nothing to do the unit
waits (the model's choice, log entry 2). -/
def Obligations.StepsWithoutResponse : Prop :=
  ∀ s : State, s.inFlight = none →
    (s.host = [] → step s = .next s) ∧
    (∀ c rest, s.host = .issueThenReset c :: rest →
      (c.withinContract s.config = true → step s = .next { s with host := rest }) ∧
      (∀ r, step s = .refused r ↔ step { s with host := .issue c :: rest } = .refused r)) ∧
    (∀ rest, s.host = .reset :: rest → step s = .next { s with host := rest }) ∧
    (∀ present rest, s.host = .setSink present :: rest →
      step s = .next { s with host := rest, sinkPresent := present })

/-- R27, R7: what holds after reset: no command in flight, this spec's parameters. -/
def Obligations.ResetState : Prop :=
  State.reset.inFlight = none ∧ State.reset.config.hasDump = true ∧ State.reset.config.zeroBsPolicy = .default16 ∧
  defaultPe = true ∧ defaultBs = 16

/-- R47: a command within the contract gets exactly one response, to its own site, in one step. The contract rests on log
entries 6 and 20. -/
def Obligations.AdmittedCommandGetsOneResponse : Prop :=
  ∀ (s : State) (c : Command), s.nextCommand c → c.withinContract s.config = true →
    ∃ (t : State) (r : Response), step s = .next t ∧ t.inFlight = none ∧ t.responses = s.responses ++ [r] ∧
      r.site = c.site ∧ t.config = s.config ∧ t.sinkPresent = s.sinkPresent ∧
      t.host = (if s.inFlight = none then s.host.tail else s.host)

/-- R47: a step never faults: the unit cannot get stuck. -/
def Obligations.StepNeverFaults : Prop :=
  ∀ (s : State) (f : Fault), step s ≠ .fault f

/-- R24: no step leaves a command in flight, so nothing of a command survives it but its response and its record. -/
def Obligations.StepLeavesNothingInFlight : Prop :=
  ∀ s t : State, step s = .next t → t.inFlight = none ∧ t.config = s.config

/-- R26, R41: responses and records are only ever appended, at most one of each in a step, and a record only together with
a response. That no record comes without a response is the model's choice for a `DUMP` that a reset abandons (log entry 9):
R151 forbids a record only of one that has not yet appended it. -/
def Obligations.ResponsesAndSinkOnlyGrow : Prop :=
  ∀ s t : State, step s = .next t →
    (t.responses = s.responses ∧ t.sink = s.sink) ∨
    (∃ r, t.responses = s.responses ++ [r] ∧ (t.sink = s.sink ∨
      ∃ text, s.sinkPresent = true ∧ r.status = .ok ∧ r.result = .nothing ∧ t.sink = s.sink ++ [text]))

/-- R84, R136: every step keeps the recorded responses legal: bit arrays produced are well-formed, error results empty. -/
def Obligations.StepKeepsResponsesLegal : Prop :=
  ∀ s t : State, s.responsesLegal = true → step s = .next t → t.responsesLegal = true

/-- The invariant of `StepKeepsResponsesLegal` holds at reset. -/
def Obligations.ResetResponsesLegal : Prop := State.reset.responsesLegal = true

/-- R24, R41, R110: the response is a function of the command alone: whatever the two states hold besides, equal commands
under equal parameters get equal responses. -/
def Obligations.ResponseDependsOnCommandAlone : Prop :=
  ∀ (s s' : State) (c : Command), s.nextCommand c → s'.nextCommand c → s'.config = s.config →
    ∀ t, step s = .next t →
      ∃ (t' : State) (r : Response), step s' = .next t' ∧ t.responses = s.responses ++ [r] ∧
        t'.responses = s'.responses ++ [r] ∧
        (s'.sinkPresent = s.sinkPresent → ∃ records, t.sink = s.sink ++ records ∧ t'.sink = s'.sink ++ records)

/-- R44: two commands issued one after the other get the same responses in either order, and each appends the same records;
only the order of responses and records differs. -/
def Obligations.InterleavingChangesNoResponse : Prop :=
  ∀ (s t : State) (c d : Command) (rest : List HostAction), s.inFlight = none →
    State.run 2 { s with host := .issue c :: .issue d :: rest } = .next t →
    ∃ (t' : State) (rc rd : Response) (kc kd : List Record),
      State.run 2 { s with host := .issue d :: .issue c :: rest } = .next t' ∧
      rc.site = c.site ∧ rd.site = d.site ∧
      t.responses = s.responses ++ [rc, rd] ∧ t'.responses = s.responses ++ [rd, rc] ∧
      t.sink = s.sink ++ kc ++ kd ∧ t'.sink = s.sink ++ kd ++ kc ∧
      kc = (if decodeCmd s.config.hasDump c.word = .ok .dump ∧ s.sinkPresent = true then [render c.ib] else []) ∧
      kd = (if decodeCmd s.config.hasDump d.word = .ok .dump ∧ s.sinkPresent = true then [render d.ib] else []) ∧
      t.host = rest ∧ t'.host = rest

/-- R107, the spec's own inference from R41: dropping every `DUMP` from what the host does, abandoned ones included, changes
no other response. -/
def Obligations.DroppingDumpsChangesNoOtherResponse : Prop :=
  ∀ (actions : List HostAction) (s t : State), s.inFlight = none →
    State.run actions.length { s with host := actions } = .next t →
    ∃ (t' : State) (given : List Response),
      State.run (actions.filter fun a => !a.isDump s.config.hasDump).length
        { s with host := actions.filter fun a => !a.isDump s.config.hasDump } = .next t' ∧
      t.responses = s.responses ++ given ∧
      t'.responses = s.responses ++ given.filter fun r => decide (r.result ≠ .nothing)

/-! ### Status codes (30_encoding.md) -/

/-- R58: the code of each status; two statuses never share one, and `11` is the code of none. -/
def Obligations.StatusCodes : Prop :=
  Status.ok.code = 0b00#2 ∧ (Status.error .invalidLength).code = 0b01#2 ∧
  (Status.error .invalidArgument).code = 0b10#2 ∧ (∀ st : Status, st.code ≠ 0b11#2) ∧
  (∀ st : Status, statusOfCode st.code = some st) ∧ statusOfCode 0b11#2 = none ∧
  (∀ (w : BitVec 2) (st : Status), statusOfCode w = some st → st.code = w)
end

