-- ==== Sys2Proof/Laws/State.lean ====
section
/-! SUPPORT. What each update of the state does to each field: one lemma per field per update, all by rfl. -/

namespace Sys2Proof.Machine

/-! ### `State.advance` -/

@[simp] theorem State.advance_config (s : State) (rest : List HostAction) : (s.advance rest).config = s.config := rfl
@[simp] theorem State.advance_host (s : State) (rest : List HostAction) : (s.advance rest).host = rest := rfl
@[simp] theorem State.advance_inFlight (s : State) (rest : List HostAction) :
    (s.advance rest).inFlight = s.inFlight := rfl
@[simp] theorem State.advance_responses (s : State) (rest : List HostAction) :
    (s.advance rest).responses = s.responses := rfl
@[simp] theorem State.advance_sink (s : State) (rest : List HostAction) : (s.advance rest).sink = s.sink := rfl
@[simp] theorem State.advance_sinkPresent (s : State) (rest : List HostAction) :
    (s.advance rest).sinkPresent = s.sinkPresent := rfl

/-! ### `State.issue` -/

@[simp] theorem State.issue_config (s : State) (c : Command) : (s.issue c).config = s.config := rfl
@[simp] theorem State.issue_host (s : State) (c : Command) : (s.issue c).host = s.host := rfl
@[simp] theorem State.issue_inFlight (s : State) (c : Command) : (s.issue c).inFlight = some c := rfl
@[simp] theorem State.issue_responses (s : State) (c : Command) : (s.issue c).responses = s.responses := rfl
@[simp] theorem State.issue_sink (s : State) (c : Command) : (s.issue c).sink = s.sink := rfl
@[simp] theorem State.issue_sinkPresent (s : State) (c : Command) : (s.issue c).sinkPresent = s.sinkPresent := rfl

/-! ### `State.resetUnit` -/

@[simp] theorem State.resetUnit_config (s : State) : s.resetUnit.config = s.config := rfl
@[simp] theorem State.resetUnit_host (s : State) : s.resetUnit.host = s.host := rfl
@[simp] theorem State.resetUnit_inFlight (s : State) : s.resetUnit.inFlight = none := rfl
@[simp] theorem State.resetUnit_responses (s : State) : s.resetUnit.responses = s.responses := rfl
@[simp] theorem State.resetUnit_sink (s : State) : s.resetUnit.sink = s.sink := rfl
@[simp] theorem State.resetUnit_sinkPresent (s : State) : s.resetUnit.sinkPresent = s.sinkPresent := rfl

/-! ### `State.attach` -/

@[simp] theorem State.attach_config (s : State) (present : Bool) : (s.attach present).config = s.config := rfl
@[simp] theorem State.attach_host (s : State) (present : Bool) : (s.attach present).host = s.host := rfl
@[simp] theorem State.attach_inFlight (s : State) (present : Bool) : (s.attach present).inFlight = s.inFlight := rfl
@[simp] theorem State.attach_responses (s : State) (present : Bool) : (s.attach present).responses = s.responses := rfl
@[simp] theorem State.attach_sink (s : State) (present : Bool) : (s.attach present).sink = s.sink := rfl
@[simp] theorem State.attach_sinkPresent (s : State) (present : Bool) : (s.attach present).sinkPresent = present := rfl

/-! ### `State.emit` -/

@[simp] theorem State.emit_config (s : State) (r : Record) : (s.emit r).config = s.config := rfl
@[simp] theorem State.emit_host (s : State) (r : Record) : (s.emit r).host = s.host := rfl
@[simp] theorem State.emit_inFlight (s : State) (r : Record) : (s.emit r).inFlight = s.inFlight := rfl
@[simp] theorem State.emit_responses (s : State) (r : Record) : (s.emit r).responses = s.responses := rfl
@[simp] theorem State.emit_sink (s : State) (r : Record) : (s.emit r).sink = s.sink ++ [r] := rfl
@[simp] theorem State.emit_sinkPresent (s : State) (r : Record) : (s.emit r).sinkPresent = s.sinkPresent := rfl

/-! ### `State.answered` -/

@[simp] theorem State.answered_config (s : State) (c : Command) (status : Status) (result : Result) :
    (s.answered c status result).config = s.config := rfl
@[simp] theorem State.answered_host (s : State) (c : Command) (status : Status) (result : Result) :
    (s.answered c status result).host = s.host := rfl
@[simp] theorem State.answered_inFlight (s : State) (c : Command) (status : Status) (result : Result) :
    (s.answered c status result).inFlight = none := rfl
@[simp] theorem State.answered_responses (s : State) (c : Command) (status : Status) (result : Result) :
    (s.answered c status result).responses = s.responses ++ [{ site := c.site, status := status, result := result }] := rfl
@[simp] theorem State.answered_sink (s : State) (c : Command) (status : Status) (result : Result) :
    (s.answered c status result).sink = s.sink := rfl
@[simp] theorem State.answered_sinkPresent (s : State) (c : Command) (status : Status) (result : Result) :
    (s.answered c status result).sinkPresent = s.sinkPresent := rfl

end Sys2Proof.Machine
end

