-- ==== Sys2Proof/Laws/Ops.lean ====
section
/-! SUPPORT. What each shared operation can do, said once: the end of a command, the start of a command, any command, any
step. -/

namespace Sys2Proof.Machine

/-! ### Responses -/

/-- With `c` in flight a response is the state with `c` answered. -/
theorem State.respond_eq {s : State} {c : Command} (h : s.inFlight = some c) (st : Status) (r : Result) :
    s.respond st r = s.answered c st r := by
  simp [State.respond, h, State.answered]

/-- With `c` in flight raising an error answers `c` with the error and an empty result. -/
theorem State.raise_eq {s : State} {c : Command} (h : s.inFlight = some c) (e : CodecError) :
    s.raise e = s.answered c (.error e) (.bytes []) := State.respond_eq h _ _

/-- Answering does not depend on what was in flight. -/
@[simp] theorem State.issue_answered (s : State) (c d : Command) (st : Status) (r : Result) :
    (s.issue c).answered d st r = s.answered d st r := rfl

/-- Two answers to one command are equal only if they carry the same status and result. -/
theorem State.answered_inj {s : State} {c : Command} {st st' : Status} {r r' : Result} :
    s.answered c st r = s.answered c st' r' ↔ st = st' ∧ r = r' := by
  simp [State.answered]

/-! ### The end of a command -/

theorem conclude_error {s : State} {c : Command} (h : s.inFlight = some c) (e : CodecError) :
    s.conclude (.error e) = .next (s.answered c (.error e) (.bytes [])) := by
  simp [State.conclude, State.raise_eq h]

theorem conclude_ok {s : State} {c : Command} {r : Result} (h : s.inFlight = some c)
    (hl : admitsLength s.config r.length = true) : s.conclude (.ok r) = .next (s.answered c .ok r) := by
  simp [State.conclude, State.respond_eq h, hl]

/-- How a command can end: the error answered, the result answered, or a result beyond `MAXLEN` refused. -/
theorem conclude_cases {s : State} {c : Command} (h : s.inFlight = some c) (out : Except CodecError Result) :
    (∃ e, out = .error e ∧ s.conclude out = .next (s.answered c (.error e) (.bytes []))) ∨
    (∃ r, out = .ok r ∧ admitsLength s.config r.length = true ∧ s.conclude out = .next (s.answered c .ok r)) ∨
    (∃ r, out = .ok r ∧ admitsLength s.config r.length = false ∧ s.conclude out = .refused .beyondMaxLen) := by
  cases out with
  | error e => exact .inl ⟨e, rfl, conclude_error h e⟩
  | ok r =>
    cases hl : admitsLength s.config r.length
    · exact .inr (.inr ⟨r, rfl, hl, by simp [State.conclude, hl]⟩)
    · exact .inr (.inl ⟨r, rfl, hl, conclude_ok h hl⟩)

/-! ### The start of a command -/

theorem withOperand_run {s : State} {c : Command} {len : Command → Nat}
    {run : Command → Host.Outcome State Fault Refusal} (h : s.inFlight = some c)
    (hl : admitsLength s.config (len c) = true) : s.withOperand len run = run c := by
  simp [State.withOperand, h, hl]

theorem withOperand_beyond {s : State} {c : Command} {len : Command → Nat}
    {run : Command → Host.Outcome State Fault Refusal} (h : s.inFlight = some c)
    (hl : admitsLength s.config (len c) = false) : s.withOperand len run = .refused .beyondMaxLen := by
  simp [State.withOperand, h, hl]

/-- A command that answers a next state had a command in flight whose operand is within `MAXLEN`. -/
theorem withOperand_next {s t : State} {len : Command → Nat} {run : Command → Host.Outcome State Fault Refusal}
    (h : s.withOperand len run = .next t) :
    ∃ c, s.inFlight = some c ∧ admitsLength s.config (len c) = true ∧ run c = .next t := by
  unfold State.withOperand at h
  split at h
  · cases h
  · rename_i c hc
    split at h
    · exact ⟨c, hc, ‹_›, h⟩
    · cases h

/-! ### A command abandoned by a reset -/

/-- What abandoning a command can do: nothing but drop it, or stop as the command itself would have. -/
theorem abandon_cases (s : State) (out : Host.Outcome State Fault Refusal) :
    (∃ t, out = .next t ∧ s.abandon out = .next s.resetUnit) ∨ (∃ f, out = .fault f ∧ s.abandon out = .fault f) ∨
    (∃ r, out = .refused r ∧ s.abandon out = .refused r) := by
  cases out with
  | next t => exact .inl ⟨t, rfl, rfl⟩
  | fault f => exact .inr (.inl ⟨f, rfl, rfl⟩)
  | refused r => exact .inr (.inr ⟨r, rfl, rfl⟩)

/-! ### The commands, with the command in flight -/

theorem execDecode_eq {s : State} {c : Command} (h : s.inFlight = some c)
    (hl : admitsLength s.config c.ib.length = true) :
    exec .decode s = s.conclude (.ok (.bits (decodeBytes c.ib))) := withOperand_run h hl

theorem execPad_eq {s : State} {c : Command} (pe : Option Bool) (bs : Option Int) (h : s.inFlight = some c)
    (hl : admitsLength s.config c.ib.length = true) :
    exec (.pad pe bs) s = s.conclude ((padBytes s.config pe bs c.ib).map Result.bytes) := withOperand_run h hl

theorem execEncode_eq {s : State} {c : Command} (pe : Option Bool) (bs : Option Int) (h : s.inFlight = some c)
    (hl : admitsLength s.config c.iw.length = true) (ha : admissible c.iw = true) :
    exec (.encode pe bs) s = s.conclude ((encodeBytes s.config pe bs c.iw).map Result.bytes) :=
  (withOperand_run h hl).trans (if_pos ha)

theorem execEncode_illFormed {s : State} {c : Command} (pe : Option Bool) (bs : Option Int)
    (h : s.inFlight = some c) (hl : admitsLength s.config c.iw.length = true) (ha : admissible c.iw = false) :
    exec (.encode pe bs) s = .refused .illFormedBitArray :=
  (withOperand_run h hl).trans (if_neg (by simp [ha]))

theorem execDump_eq {s : State} {c : Command} (h : s.inFlight = some c)
    (hl : admitsLength s.config c.ib.length = true) :
    exec .dump s =
      (if s.sinkPresent then s.emit (render c.ib) else s).conclude (.ok .nothing) := withOperand_run h hl

/-- A result of length 0 is within every `MAXLEN`. -/
@[simp] theorem admitsLength_zero (cfg : Config) : admitsLength cfg 0 = true := by
  simp only [admitsLength]; split <;> simp

/-- `MAXLEN` bounds downwards: what is shorter than an admitted length is admitted. -/
theorem admitsLength_mono {cfg : Config} {m n : Nat} (h : admitsLength cfg n = true) (hmn : m ≤ n) :
    admitsLength cfg m = true := by
  unfold admitsLength at *
  split at h
  · rfl
  · exact decide_eq_true (hmn.trans (of_decide_eq_true h))

end Sys2Proof.Machine
end

