-- ==== Sys2Proof/Laws/BitArrays.lean ====
section
/-! SUPPORT. Bit arrays, entry by entry: well-formedness, bit length, bit string, and the bytes `ENCODE` keeps. -/

namespace Sys2Proof.Machine

/-! ### Masks -/

/-- The bits of `lowMask k`. -/
theorem lowMask_getLsbD (k i : Nat) (hi : i < 32) : (lowMask k).getLsbD i = decide (i < 32 - k) := by
  have all : ∀ j : Fin 33, ∀ i : Fin 32, (1#32 <<< j.val - 1#32).getLsbD i.val = decide (i.val < j.val) := by decide
  exact all ⟨32 - k, by omega⟩ ⟨i, hi⟩

/-! ### Well-formedness, entry by entry -/

@[simp] theorem admissible_nil : admissible [] = true := rfl

@[simp] theorem admissible_singleton (e : Entry) : admissible [e] = legalSig e.sig := by
  simp [admissible, fullButLast, lastTagLegal]

@[simp] theorem admissible_cons_cons (e e' : Entry) (rest : List Entry) :
    admissible (e :: e' :: rest) = (decide (e.sig = 32#8) && admissible (e' :: rest)) := by
  simp [admissible, fullButLast, lastTagLegal, Bool.and_assoc]

/-- A legal tag is between 1 and 32 (10_state.md R12). -/
theorem legalSig_iff (k : BitVec 8) : legalSig k = true ↔ 1 ≤ k.toNat ∧ k.toNat ≤ 32 := by
  simp [legalSig]

/-! ### Bit length and bit string -/

@[simp] theorem bitLength_nil : bitLength [] = 0 := rfl

@[simp] theorem bitLength_singleton (e : Entry) : bitLength [e] = e.sig.toNat := by simp [bitLength]

@[simp] theorem bitLength_cons_cons (e e' : Entry) (rest : List Entry) :
    bitLength (e :: e' :: rest) = 32 + bitLength (e' :: rest) := by
  have last : (e' :: rest).getLast? = some ((e' :: rest).getLast (by simp)) := List.getLast?_eq_some_getLast (by simp)
  simp only [bitLength, List.getLast?_cons_cons, last, List.length_cons]
  omega

@[simp] theorem bits_nil : bits [] = [] := rfl

@[simp] theorem bits_cons (e : Entry) (rest : List Entry) : bits (e :: rest) = entryBitString e ++ bits rest := rfl

@[simp] theorem entryBitString_length (e : Entry) : (entryBitString e).length = e.sig.toNat := by
  simp [entryBitString]

/-! ### The bytes `ENCODE` keeps -/

@[simp] theorem bytes4_length (v : Word) : (bytes4 v).length = 4 := rfl

@[simp] theorem materialize_nil : materialize [] = [] := rfl

@[simp] theorem materialize_cons (e : Entry) (rest : List Entry) :
    materialize (e :: rest) = bytes4 e.value ++ materialize rest := rfl

/-- `full` has 4 bytes for each entry (40_encode.md R71). -/
@[simp] theorem materialize_length (a : List Entry) : (materialize a).length = 4 * a.length := by
  induction a with
  | nil => rfl
  | cons e rest ih => simp [ih]; omega

@[simp] theorem truncated_singleton (e : Entry) :
    truncated [e] = (bytes4 e.value).take (e.sig.toNat / 8) := by
  simp [truncated]

/-- Every entry but the last keeps all its 4 bytes (20_memory.md R36). -/
theorem truncated_cons_cons (e e' : Entry) (rest : List Entry) :
    truncated (e :: e' :: rest) = bytes4 e.value ++ truncated (e' :: rest) := by
  have h : bitLength (e :: e' :: rest) / 8 = 4 + bitLength (e' :: rest) / 8 := by
    rw [bitLength_cons_cons]; omega
  simp only [truncated, h, materialize_cons e]
  rw [show 4 = (bytes4 e.value).length from rfl, List.take_length_add_append]

end Sys2Proof.Machine
end

