-- ==== Sys2Proof/Laws/Encoding.lean ====
section
/-! SUPPORT. The fields of a command word: a word is its fields, and a word made of fields has them. -/

namespace Sys2Proof

/-- A command word is the concatenation of its fields (30_encoding.md R50). -/
theorem word_of_its_fields (c : CmdWord) :
    bsField c ++ rsvField c ++ BitVec.ofBool (bsvField c) ++ BitVec.ofBool (peField c) ++ BitVec.ofBool (pevField c)
      ++ opField c = c := by
  apply BitVec.eq_of_getLsbD_eq
  intro i hi
  simp only [bsField, rsvField, bsvField, peField, pevField, opField, BitVec.getLsbD_append,
    BitVec.getLsbD_extractLsb', BitVec.getLsbD_ofBool]
  interval_cases i <;> simp

/-- The fields of a concatenation are its parts (30_encoding.md R50). -/
theorem fields_of_word (bs : BitVec 32) (rsv : BitVec 3) (v p e : Bool) (op : BitVec 2) (c : CmdWord)
    (h : c = bs ++ rsv ++ BitVec.ofBool v ++ BitVec.ofBool p ++ BitVec.ofBool e ++ op) :
    opField c = op ∧ pevField c = e ∧ peField c = p ∧ bsvField c = v ∧ rsvField c = rsv ∧ bsField c = bs := by
  subst h
  refine ⟨?_, ?_, ?_, ?_, ?_, ?_⟩
  · ext i hi
    simp only [opField, BitVec.getElem_extractLsb', BitVec.getLsbD_append, BitVec.getLsbD_ofBool]
    simp [hi, BitVec.getLsbD_eq_getElem]
  · simp only [pevField, BitVec.getLsbD_append, BitVec.getLsbD_ofBool]; simp
  · simp only [peField, BitVec.getLsbD_append, BitVec.getLsbD_ofBool]; simp
  · simp only [bsvField, BitVec.getLsbD_append, BitVec.getLsbD_ofBool]; simp
  · ext i hi
    simp only [rsvField, BitVec.getElem_extractLsb', BitVec.getLsbD_append, BitVec.getLsbD_ofBool]
    interval_cases i <;> simp [BitVec.getLsbD_eq_getElem]
  · ext i hi
    simp only [bsField, BitVec.getElem_extractLsb', BitVec.getLsbD_append, BitVec.getLsbD_ofBool]
    interval_cases i <;> simp [BitVec.getLsbD_eq_getElem]

/-- A word with no parameter bit set has every parameter field 0 (30_encoding.md R59 V4). -/
theorem parameterBits_eq_zero (c : CmdWord) : parameterBits c = 0#38 ↔
    bsField c = 0#32 ∧ rsvField c = 0#3 ∧ bsvField c = false ∧ peField c = false ∧ pevField c = false := by
  constructor
  · intro h
    have hh : ∀ i, i < 38 → c.getLsbD (2 + i) = false := by
      intro i hi
      have := congrArg (fun x => BitVec.getLsbD x i) h
      simpa [parameterBits, BitVec.getLsbD_extractLsb', hi] using this
    refine ⟨?_, ?_, hh 2 (by decide), hh 1 (by decide), hh 0 (by decide)⟩
    · ext i hi
      simpa [bsField, show 8 + i = 2 + (i + 6) by omega] using hh (i + 6) (by omega)
    · ext i hi
      simpa [rsvField, show 5 + i = 2 + (i + 3) by omega] using hh (i + 3) (by omega)
  · rintro ⟨h1, h2, h3, h4, h5⟩
    have hc := word_of_its_fields c
    rw [h1, h2, h3, h4, h5] at hc
    rw [← hc]
    ext i hi
    simp only [parameterBits, BitVec.getElem_extractLsb', BitVec.getLsbD_append, BitVec.getLsbD_ofBool]
    interval_cases i <;> simp

/-- When a word decodes. -/
theorem decodeCmd_eq_ok (hasDump : Bool) (c : CmdWord) (i : Instr) :
    decodeCmd hasDump c = .ok i ↔ invalidity hasDump c = none ∧ commandOf c = i := by
  unfold decodeCmd; split <;> simp_all

/-- A block size that fits the field is read back from it (30_encoding.md R53). -/
theorem toInt_of_fits {bs : Option Int} (h : blockSizeFits bs = true) :
    (BitVec.ofInt 32 (bs.getD 0)).toInt = bs.getD 0 := by
  cases bs with
  | none => simp
  | some b =>
    simp [blockSizeFits] at h ⊢
    rw [Int.bmod_def]; split <;> omega

end Sys2Proof
end

