-- ==== Sys2Proof/Laws/Exec.lean ====
section
/-! SUPPORT. What a command can do, said once: its outcome is a function of the parameters and the command
(10_state.md R24), and the state afterwards is the command answered, with at most one record more. -/

namespace Sys2Proof.Machine

/-- The status and result of a finished computation, or the refusal of a result beyond `MAXLEN`. -/
def concluded (cfg : Config) : Except CodecError Result → Except Refusal (Status × Result)
  | .error e => .ok (.error e, .bytes [])
  | .ok r => if admitsLength cfg r.length then .ok (.ok, r) else .error .beyondMaxLen

/-- What a command answers, or why it is refused: a function of the parameters and the command alone. -/
def answerOf (cfg : Config) (i : Instr) (c : Command) : Except Refusal (Status × Result) :=
  match i with
  | .encode pe bs =>
    if admitsLength cfg c.iw.length then
      if admissible c.iw then concluded cfg ((encodeBytes cfg pe bs c.iw).map Result.bytes)
      else .error .illFormedBitArray
    else .error .beyondMaxLen
  | .decode =>
    if admitsLength cfg c.ib.length then concluded cfg (.ok (.bits (decodeBytes c.ib))) else .error .beyondMaxLen
  | .pad pe bs =>
    if admitsLength cfg c.ib.length then concluded cfg ((padBytes cfg pe bs c.ib).map Result.bytes)
    else .error .beyondMaxLen
  | .dump => if admitsLength cfg c.ib.length then .ok (.ok, .nothing) else .error .beyondMaxLen

/-- When a finished computation answers: with its error and an empty result, or with its result if that is admitted. -/
theorem concluded_eq_ok {cfg : Config} {out : Except CodecError Result} {a : Status × Result} :
    concluded cfg out = .ok a ↔
      (∃ e, out = .error e ∧ a = (.error e, .bytes [])) ∨
      (∃ r, out = .ok r ∧ admitsLength cfg r.length = true ∧ a = (.ok, r)) := by
  cases out with
  | error e => exact ⟨fun h => .inl ⟨e, rfl, by simpa [concluded] using h.symm⟩, by rintro (⟨_, ⟨⟩, rfl⟩ | ⟨_, ⟨⟩, _⟩); rfl⟩
  | ok r =>
    cases hl : admitsLength cfg r.length
    · simp [concluded, hl]
    · simp only [concluded, hl, if_true, Except.ok.injEq]
      exact ⟨fun h => .inr ⟨r, rfl, hl, h.symm⟩, by rintro (⟨_, ⟨⟩, _⟩ | ⟨_, ⟨⟩, _, rfl⟩); rfl⟩

/-- `concluded_eq_ok` for the computations that give a byte buffer. -/
theorem concluded_bytes_eq_ok {cfg : Config} {out : Except CodecError (List Byte)} {a : Status × Result} :
    concluded cfg (out.map Result.bytes) = .ok a ↔
      (∃ e, out = .error e ∧ a = (.error e, .bytes [])) ∨
      (∃ ob, out = .ok ob ∧ admitsLength cfg ob.length = true ∧ a = (.ok, .bytes ob)) := by
  cases out <;> simp [concluded_eq_ok, Except.map, Result.length]

/-- When `ENCODE` is answered. -/
theorem answerOf_encode {cfg : Config} {pe : Option Bool} {bs : Option Int} {c : Command} {a : Status × Result} :
    answerOf cfg (.encode pe bs) c = .ok a ↔
      admitsLength cfg c.iw.length = true ∧ admissible c.iw = true ∧
        concluded cfg ((encodeBytes cfg pe bs c.iw).map Result.bytes) = .ok a := by
  cases hl : admitsLength cfg c.iw.length <;> cases ha : admissible c.iw <;> simp [answerOf, hl, ha]

/-- When `PAD` is answered. -/
theorem answerOf_pad {cfg : Config} {pe : Option Bool} {bs : Option Int} {c : Command} {a : Status × Result} :
    answerOf cfg (.pad pe bs) c = .ok a ↔
      admitsLength cfg c.ib.length = true ∧
        concluded cfg ((padBytes cfg pe bs c.ib).map Result.bytes) = .ok a := by
  cases hl : admitsLength cfg c.ib.length <;> simp [answerOf, hl]

/-- When `DECODE` is answered: its result is never longer than its operand. -/
theorem answerOf_decode {cfg : Config} {c : Command} {a : Status × Result} :
    answerOf cfg .decode c = .ok a ↔
      admitsLength cfg c.ib.length = true ∧ a = (.ok, .bits (decodeBytes c.ib)) := by
  have short : (decodeBytes c.ib).length ≤ c.ib.length := by
    have : (tailEntry c.ib).toList.length ≤ c.ib.length % 4 := by
      by_cases h : c.ib.length % 4 = 0
      · simp [tailEntry, h]
      · exact (Option.length_toList_le).trans (by omega)
    simp [decodeBytes]; omega
  cases hl : admitsLength cfg c.ib.length
  · simp [answerOf, hl]
  · have := admitsLength_mono hl short
    simp [answerOf, hl, concluded_eq_ok, Result.length, this]

/-- When `DUMP` is answered. -/
theorem answerOf_dump {cfg : Config} {c : Command} {a : Status × Result} :
    answerOf cfg .dump c = .ok a ↔ admitsLength cfg c.ib.length = true ∧ a = (.ok, .nothing) := by
  cases hl : admitsLength cfg c.ib.length
  · simp [answerOf, hl]
  · simp [answerOf, hl, eq_comm (a := a)]

/-- The records a command appends to the sink. -/
def recordsOf (present : Bool) (i : Instr) (c : Command) : List Record :=
  match i with
  | .encode _ _ => []
  | .decode => []
  | .pad _ _ => []
  | .dump => if present then [render c.ib] else []

/-- The state after a command has been answered and its records appended. -/
def State.afterCommand (s : State) (i : Instr) (c : Command) (a : Status × Result) : State :=
  { s.answered c a.1 a.2 with sink := s.sink ++ recordsOf s.sinkPresent i c }

/-- Without a record the state afterwards is the command answered. -/
theorem State.afterCommand_of_noRecord {s : State} {i : Instr} {c : Command} {a : Status × Result}
    (h : recordsOf s.sinkPresent i c = []) : s.afterCommand i c a = s.answered c a.1 a.2 := by
  simp [State.afterCommand, h, State.answered]

/-- The end of a command, as `concluded` says. -/
theorem conclude_eq_concluded {s : State} {c : Command} (h : s.inFlight = some c) (out : Except CodecError Result) :
    s.conclude out =
      match concluded s.config out with
      | .ok a => .next (s.answered c a.1 a.2)
      | .error r => .refused r := by
  rcases conclude_cases h out with ⟨e, rfl, h2⟩ | ⟨r, rfl, hl, h2⟩ | ⟨r, rfl, hl, h2⟩
  · exact h2
  · simp [h2, concluded, hl]
  · simp [h2, concluded, hl]

/-- THE inversion lemma of the meanings: with `c` in flight, `exec i` answers `c` or is refused, as `answerOf` says, and
changes nothing else but the sink. -/
theorem exec_eq_answer {s : State} {c : Command} (h : s.inFlight = some c) (i : Instr) :
    exec i s =
      match answerOf s.config i c with
      | .ok a => .next (s.afterCommand i c a)
      | .error r => .refused r := by
  cases i with
  | encode pe bs =>
    cases hl : admitsLength s.config c.iw.length
    · have e : exec (.encode pe bs) s = _ := withOperand_beyond h hl
      simp [e, answerOf, hl]
    · cases ha : admissible c.iw
      · simp [execEncode_illFormed pe bs h hl ha, answerOf, hl, ha]
      · rw [execEncode_eq pe bs h hl ha, conclude_eq_concluded h]
        simp only [answerOf, hl, ha, if_true]
        cases concluded s.config _
        · rfl
        · exact congrArg _ (State.afterCommand_of_noRecord rfl).symm
  | decode =>
    cases hl : admitsLength s.config c.ib.length
    · have e : exec .decode s = _ := withOperand_beyond h hl
      simp [e, answerOf, hl]
    · rw [execDecode_eq h hl, conclude_eq_concluded h]
      simp only [answerOf, hl, if_true]
      cases concluded s.config _
      · rfl
      · exact congrArg _ (State.afterCommand_of_noRecord rfl).symm
  | pad pe bs =>
    cases hl : admitsLength s.config c.ib.length
    · have e : exec (.pad pe bs) s = _ := withOperand_beyond h hl
      simp [e, answerOf, hl]
    · rw [execPad_eq pe bs h hl, conclude_eq_concluded h]
      simp only [answerOf, hl, if_true]
      cases concluded s.config _
      · rfl
      · exact congrArg _ (State.afterCommand_of_noRecord rfl).symm
  | dump =>
    cases hl : admitsLength s.config c.ib.length
    · have e : exec .dump s = _ := withOperand_beyond h hl
      simp [e, answerOf, hl]
    · rw [execDump_eq h hl]
      cases hp : s.sinkPresent
      · rw [if_neg (by simp), conclude_ok h (by simp [Result.length])]
        simp [answerOf, hl, State.afterCommand_of_noRecord, recordsOf, hp]
      · rw [if_pos rfl, conclude_ok (s := s.emit (render c.ib)) (c := c) h (by simp [Result.length])]
        simp [answerOf, hl, State.afterCommand, recordsOf, hp, State.answered, State.emit]

/-- With no command in flight a meaning has no operand. -/
theorem exec_idle {s : State} (h : s.inFlight = none) (i : Instr) : exec i s = .fault .noCommandInFlight := by
  cases i <;> simp [exec, execEncode, execDecode, execPad, execDump, State.withOperand, h]

/-! ### Steps -/

/-- THE inversion lemma of a fetched command: with `c` in flight, its word is decoded and it is answered as `answerOf` says,
or it is refused. -/
theorem runWord_eq_answer {s : State} {c : Command} (h : s.inFlight = some c) :
    runWord c.word s =
      match decodeCmd s.config.hasDump c.word with
      | .error why => .refused (.invalidCommand why)
      | .ok i =>
        match answerOf s.config i c with
        | .ok a => .next (s.afterCommand i c a)
        | .error r => .refused r := by
  unfold runWord decodeFetched
  cases decodeCmd s.config.hasDump c.word with
  | error e => rfl
  | ok i => exact exec_eq_answer h i

/-- A step with the command `c` in flight. -/
theorem step_inFlight {s : State} {c : Command} (h : s.inFlight = some c) : step s = runWord c.word s := by
  simp [step, fetch, h]

/-- A step whose next host action is to issue `c` runs it. -/
theorem step_issue {s : State} {c : Command} {rest : List HostAction} (h : s.inFlight = none)
    (hh : s.host = .issue c :: rest) : step s = runWord c.word ((s.advance rest).issue c) := by
  simp [step, fetch, h, hh]

/-- A step whose next host action is to issue `c` and reset the unit abandons it. -/
theorem step_issueThenReset {s : State} {c : Command} {rest : List HostAction} (h : s.inFlight = none)
    (hh : s.host = .issueThenReset c :: rest) :
    step s = ((s.advance rest).issue c).abandon (runWord c.word ((s.advance rest).issue c)) := by
  simp [step, fetch, h, hh]

/-- The state in which the next command runs, but for the command itself: the host action that issues it is taken. -/
def State.loaded (s : State) : State := if s.inFlight = none then s.advance s.host.tail else s

@[simp] theorem State.loaded_config (s : State) : s.loaded.config = s.config := by unfold State.loaded; split <;> rfl
@[simp] theorem State.loaded_responses (s : State) : s.loaded.responses = s.responses := by
  unfold State.loaded; split <;> rfl
@[simp] theorem State.loaded_sink (s : State) : s.loaded.sink = s.sink := by unfold State.loaded; split <;> rfl
@[simp] theorem State.loaded_sinkPresent (s : State) : s.loaded.sinkPresent = s.sinkPresent := by
  unfold State.loaded; split <;> rfl

/-- THE inversion lemma of a step that runs a command: it is decoded, answered as `answerOf` says, or refused. -/
theorem step_eq_answer {s : State} {c : Command} (h : s.nextCommand c) :
    step s =
      match decodeCmd s.config.hasDump c.word with
      | .error why => .refused (.invalidCommand why)
      | .ok i =>
        match answerOf s.config i c with
        | .ok a => .next (s.loaded.afterCommand i c a)
        | .error r => .refused r := by
  rcases h with h | ⟨h, hh⟩
  · rw [step_inFlight h, runWord_eq_answer h]; simp only [State.loaded, h]; rfl
  · obtain ⟨rest, hr⟩ : ∃ rest, s.host = .issue c :: rest := by
      cases hs : s.host <;> simp_all
    rw [step_issue h hr, runWord_eq_answer (c := c) rfl]; simp only [State.loaded, h, hr]; rfl

/-- THE inversion lemma of a step that abandons a command: it is dropped if it would have been answered, and refused if it
would have been refused. -/
theorem step_eq_abandoned {s : State} {c : Command} (h : s.abandonedCommand c) :
    step s =
      match decodeCmd s.config.hasDump c.word with
      | .error why => .refused (.invalidCommand why)
      | .ok i =>
        match answerOf s.config i c with
        | .ok _ => .next s.loaded
        | .error r => .refused r := by
  obtain ⟨h, hh⟩ := h
  obtain ⟨rest, hr⟩ : ∃ rest, s.host = .issueThenReset c :: rest := by
    cases hs : s.host <;> simp_all
  rw [step_issueThenReset h hr, runWord_eq_answer (c := c) rfl]
  simp only [State.issue_config, State.advance_config]
  cases decodeCmd s.config.hasDump c.word with
  | error e => rfl
  | ok i =>
    cases ha : answerOf s.config i c
    · simp only [ha, State.abandon]
    · simp only [ha, State.abandon, State.loaded, h, hr, if_true]
      simp [State.resetUnit, State.issue, State.advance, h]

/-- A step that runs the command `c` and answers a next state. -/
theorem step_answered {s t : State} {c : Command} (hc : s.nextCommand c) (h : step s = .next t) :
    ∃ i a, decodeCmd s.config.hasDump c.word = .ok i ∧ answerOf s.config i c = .ok a ∧
      t = s.loaded.afterCommand i c a := by
  rw [step_eq_answer hc] at h
  cases hd : decodeCmd s.config.hasDump c.word with
  | error e => simp [hd] at h
  | ok i =>
    cases ha : answerOf s.config i c with
    | error r => simp [hd, ha] at h
    | ok a => simp [hd, ha] at h; exact ⟨i, a, rfl, ha, h.symm⟩

/-- What a step can do: run the next command, refuse a command that a reset would have abandoned, or let the host or the
environment act without a command to answer. -/
theorem step_cases (s : State) :
    (∃ c, s.nextCommand c) ∨ (∃ c r, s.abandonedCommand c ∧ step s = .refused r) ∨
    ∃ t, step s = .next t ∧ t.inFlight = none ∧ t.config = s.config ∧ t.responses = s.responses ∧ t.sink = s.sink := by
  cases h : s.inFlight with
  | some c => exact .inl ⟨c, .inl h⟩
  | none =>
    cases hh : s.host with
    | nil => exact .inr (.inr ⟨s, by simp [step, fetch, h, hh], h, rfl, rfl, rfl⟩)
    | cons a rest =>
      cases a with
      | issue c => exact .inl ⟨c, .inr ⟨h, by simp [hh]⟩⟩
      | issueThenReset c =>
        have hc : s.abandonedCommand c := ⟨h, by simp [hh]⟩
        have e := step_eq_abandoned hc
        cases hd : decodeCmd s.config.hasDump c.word with
        | error why => exact .inr (.inl ⟨c, _, hc, by rw [e, hd]⟩)
        | ok i =>
          cases ha : answerOf s.config i c with
          | error r => exact .inr (.inl ⟨c, r, hc, by rw [e, hd]; simp only [ha]⟩)
          | ok a =>
            refine .inr (.inr ⟨s.loaded, by rw [e, hd]; simp only [ha], ?_, by simp, by simp, by simp⟩)
            simp [State.loaded, h]
      | reset => exact .inr (.inr ⟨(s.advance rest).resetUnit, by simp [step, fetch, h, hh], rfl, rfl, rfl, rfl⟩)
      | setSink p => exact .inr (.inr ⟨(s.advance rest).attach p, by simp [step, fetch, h, hh], h, rfl, rfl, rfl⟩)

/-! ### The contract -/

/-- A command is answered exactly when its operand is admitted and its result fits. -/
theorem answerOf_isOk (cfg : Config) (i : Instr) (c : Command) :
    (∃ a, answerOf cfg i c = .ok a) ↔
      c.operandFits cfg i = true ∧ c.operandAdmissible i = true ∧ c.resultFits cfg i = true := by
  have bytes (out : Except CodecError (List Byte)) :
      (∃ a, concluded cfg (out.map Result.bytes) = .ok a) ↔ resultAdmitted cfg out = true := by
    cases out <;> simp [concluded_bytes_eq_ok, resultAdmitted]
  cases i with
  | encode pe bs => simp [answerOf_encode, Command.operandFits, Command.operandAdmissible, Command.resultFits, ← bytes]
  | decode => simp [answerOf_decode, Command.operandFits, Command.operandAdmissible, Command.resultFits]
  | pad pe bs => simp [answerOf_pad, Command.operandFits, Command.operandAdmissible, Command.resultFits, ← bytes]
  | dump => simp [answerOf_dump, Command.operandFits, Command.operandAdmissible, Command.resultFits]

/-- When a command is refused, and as what: an operand beyond `MAXLEN` first, then an ill-formed bit array, then a result
beyond `MAXLEN`. -/
theorem answerOf_error (cfg : Config) (i : Instr) (c : Command) (r : Refusal) :
    answerOf cfg i c = .error r ↔
      (r = .illFormedBitArray ∧ c.operandFits cfg i = true ∧ c.operandAdmissible i = false) ∨
      (r = .beyondMaxLen ∧ (c.operandFits cfg i = false ∨
        c.operandFits cfg i = true ∧ c.operandAdmissible i = true ∧ c.resultFits cfg i = false)) := by
  have bytes (out : Except CodecError (List Byte)) :
      concluded cfg (out.map Result.bytes) = .error r ↔ r = .beyondMaxLen ∧ resultAdmitted cfg out = false := by
    cases out with
    | error e => simp [concluded, Except.map, resultAdmitted]
    | ok ob =>
      cases h : admitsLength cfg ob.length <;> simp [concluded, Except.map, resultAdmitted, Result.length, h, eq_comm]
  cases i with
  | encode pe bs =>
    cases hl : admitsLength cfg c.iw.length <;> cases ha : admissible c.iw <;>
      simp [answerOf, Command.operandFits, Command.operandAdmissible, Command.resultFits, hl, ha, bytes, eq_comm (a := r)]
  | decode =>
    cases hl : admitsLength cfg c.ib.length
    · simp [answerOf, Command.operandFits, Command.operandAdmissible, Command.resultFits, hl, eq_comm (a := r)]
    · simp [answerOf_decode.2 ⟨hl, rfl⟩, Command.operandFits, Command.operandAdmissible, Command.resultFits, hl]
  | pad pe bs =>
    cases hl : admitsLength cfg c.ib.length <;>
      simp [answerOf, Command.operandFits, Command.operandAdmissible, Command.resultFits, hl, bytes, eq_comm (a := r)]
  | dump =>
    cases hl : admitsLength cfg c.ib.length <;>
      simp [answerOf, Command.operandFits, Command.operandAdmissible, Command.resultFits, hl, eq_comm (a := r)]

/-- A command whose word is valid is answered exactly when it is within the contract. -/
theorem answerOf_contract {cfg : Config} {c : Command} {i : Instr} (h : decodeCmd cfg.hasDump c.word = .ok i) :
    (∃ a, answerOf cfg i c = .ok a) ↔ c.withinContract cfg = true := by
  rw [answerOf_isOk]; simp [Command.withinContract, h, and_assoc]

end Sys2Proof.Machine
end

