-- ==== Sys2Proof/Laws/Lanes.lean ====
section
/-! SUPPORT. The byte lanes: big-endian values of short sequences, and `DECODE` four bytes at a time. -/

namespace Sys2Proof.Machine

/-! ### Big-endian values -/

@[simp] theorem bigEndian_one (a : Byte) : bigEndian [a] = a.setWidth 32 := by
  simp [bigEndian]

@[simp] theorem bigEndian_two (a b : Byte) : bigEndian [a, b] = (a ++ b).setWidth 32 := by
  apply BitVec.eq_of_getLsbD_eq
  intro i hi
  simp only [bigEndian, List.foldl, BitVec.getLsbD_or, BitVec.getLsbD_shiftLeft, BitVec.getLsbD_setWidth,
    BitVec.getLsbD_append, BitVec.getLsbD_zero]
  interval_cases i <;> simp

@[simp] theorem bigEndian_three (a b c : Byte) : bigEndian [a, b, c] = (a ++ b ++ c).setWidth 32 := by
  apply BitVec.eq_of_getLsbD_eq
  intro i hi
  simp only [bigEndian, List.foldl, BitVec.getLsbD_or, BitVec.getLsbD_shiftLeft, BitVec.getLsbD_setWidth,
    BitVec.getLsbD_append, BitVec.getLsbD_zero]
  interval_cases i <;> simp

@[simp] theorem bigEndian_four (a b c d : Byte) : bigEndian [a, b, c, d] = a ++ b ++ c ++ d := by
  apply BitVec.eq_of_getLsbD_eq
  intro i hi
  simp only [bigEndian, List.foldl, BitVec.getLsbD_or, BitVec.getLsbD_shiftLeft, BitVec.getLsbD_setWidth,
    BitVec.getLsbD_append, BitVec.getLsbD_zero]
  interval_cases i <;> simp

/-! ### Reading past a prefix -/

/-- Reading behind a prefix of 4 bytes is reading what follows it. -/
theorem memRead_skip (a b c d : Byte) (rest : List Byte) (addr n : Nat) :
    memRead (a :: b :: c :: d :: rest) (addr + 4) n = memRead rest addr n := by
  simp [memRead]

/-! ### Words and their bytes -/

/-- The four bytes of a word made of four bytes (20_memory.md R33). -/
theorem bytes4_append (a b c d : Byte) : bytes4 (a ++ b ++ c ++ d) = [a, b, c, d] := by
  have lane0 : byteOfWord (a ++ b ++ c ++ d) 0 = a := by
    apply BitVec.eq_of_getLsbD_eq; intro i hi
    simp only [byteOfWord, BitVec.getLsbD_extractLsb', BitVec.getLsbD_append]; interval_cases i <;> simp
  have lane1 : byteOfWord (a ++ b ++ c ++ d) 1 = b := by
    apply BitVec.eq_of_getLsbD_eq; intro i hi
    simp only [byteOfWord, BitVec.getLsbD_extractLsb', BitVec.getLsbD_append]; interval_cases i <;> simp
  have lane2 : byteOfWord (a ++ b ++ c ++ d) 2 = c := by
    apply BitVec.eq_of_getLsbD_eq; intro i hi
    simp only [byteOfWord, BitVec.getLsbD_extractLsb', BitVec.getLsbD_append]; interval_cases i <;> simp
  have lane3 : byteOfWord (a ++ b ++ c ++ d) 3 = d := by
    apply BitVec.eq_of_getLsbD_eq; intro i hi
    simp only [byteOfWord, BitVec.getLsbD_extractLsb', BitVec.getLsbD_append]; interval_cases i <;> simp
  simp [bytes4, lane0, lane1, lane2, lane3]

/-! ### `DECODE`, four bytes at a time -/

/-- Induction over a byte buffer four bytes at a time. -/
theorem bytes_by_four {P : List Byte → Prop} (h0 : P []) (h1 : ∀ a, P [a]) (h2 : ∀ a b, P [a, b])
    (h3 : ∀ a b c, P [a, b, c]) (h4 : ∀ a b c d rest, P rest → P (a :: b :: c :: d :: rest)) : ∀ l, P l
  | [] => h0
  | [a] => h1 a
  | [a, b] => h2 a b
  | [a, b, c] => h3 a b c
  | a :: b :: c :: d :: rest => h4 a b c d rest (bytes_by_four h0 h1 h2 h3 h4 rest)

@[simp] theorem decodeBytes_nil : decodeBytes [] = [] := rfl

/-- The first 4-byte group gives the first entry (41_decode.md R81). -/
theorem decodeBytes_cons (a b c d : Byte) (rest : List Byte) :
    decodeBytes (a :: b :: c :: d :: rest) = { value := a ++ b ++ c ++ d, sig := 32#8 } :: decodeBytes rest := by
  have hq : (a :: b :: c :: d :: rest).length / 4 = rest.length / 4 + 1 := by simp; omega
  have hr : (a :: b :: c :: d :: rest).length % 4 = rest.length % 4 := by simp; omega
  have tail : tailEntry (a :: b :: c :: d :: rest) = tailEntry rest := by
    simp only [tailEntry, hq, hr, show 4 * (rest.length / 4 + 1) = 4 * (rest.length / 4) + 4 by omega, memRead_skip]
  have full : ∀ j, fullEntry (a :: b :: c :: d :: rest) (j + 1) = fullEntry rest j := by
    intro j; simp only [fullEntry, show 4 * (j + 1) = 4 * j + 4 by omega, memRead_skip]
  have first : fullEntry (a :: b :: c :: d :: rest) 0 = { value := a ++ b ++ c ++ d, sig := 32#8 } := by
    simp [fullEntry, memRead]
  rw [decodeBytes, hq, tail, List.range_succ_eq_map]
  simp [decodeBytes, full, first, Function.comp_def]

/-- A partial entry made of the top `k` bits of a word whose other bits are 0 is that word. -/
theorem makePartial_of_clear {k : Nat} {v : Word} (h1 : 1 ≤ k) (h2 : k ≤ 31) (hv : v &&& ~~~(lowMask k) = v) :
    makePartial k v = some { value := v, sig := BitVec.ofNat 8 k } := by
  simp [makePartial, h1, h2, hv]

/-- A tail of one byte (41_decode.md R82). -/
theorem decodeBytes_one (a : Byte) : decodeBytes [a] = [{ value := a ++ 0#24, sig := 8#8 }] := by
  have e : tailEntry [a] = makePartial 8 (a.setWidth 32 <<< 24) := by simp [tailEntry, memRead]
  have v : (a.setWidth 32 <<< 24 : Word) = a ++ 0#24 := by
    apply BitVec.eq_of_getLsbD_eq; intro i hi
    simp only [BitVec.getLsbD_shiftLeft, BitVec.getLsbD_setWidth, BitVec.getLsbD_append]
    interval_cases i <;> simp
  have m : (a ++ 0#24 : Word) &&& ~~~(lowMask 8) = a ++ 0#24 := by
    apply BitVec.eq_of_getLsbD_eq; intro i hi
    simp only [lowMask, BitVec.getLsbD_and, BitVec.getLsbD_append]
    interval_cases i <;> simp
  simp [decodeBytes, e, v, makePartial_of_clear (by decide) (by decide) m]

/-- A tail of two bytes (41_decode.md R82). -/
theorem decodeBytes_two (a b : Byte) : decodeBytes [a, b] = [{ value := a ++ b ++ 0#16, sig := 16#8 }] := by
  have e : tailEntry [a, b] = makePartial 16 ((a ++ b).setWidth 32 <<< 16) := by simp [tailEntry, memRead]
  have v : ((a ++ b).setWidth 32 <<< 16 : Word) = a ++ b ++ 0#16 := by
    apply BitVec.eq_of_getLsbD_eq; intro i hi
    simp only [BitVec.getLsbD_shiftLeft, BitVec.getLsbD_setWidth, BitVec.getLsbD_append]
    interval_cases i <;> simp
  have m : (a ++ b ++ 0#16 : Word) &&& ~~~(lowMask 16) = a ++ b ++ 0#16 := by
    apply BitVec.eq_of_getLsbD_eq; intro i hi
    simp only [lowMask, BitVec.getLsbD_and, BitVec.getLsbD_append]
    interval_cases i <;> simp
  simp [decodeBytes, e, v, makePartial_of_clear (by decide) (by decide) m]

/-- A tail of three bytes (41_decode.md R82). -/
theorem decodeBytes_three (a b c : Byte) :
    decodeBytes [a, b, c] = [{ value := a ++ b ++ c ++ 0#8, sig := 24#8 }] := by
  have e : tailEntry [a, b, c] = makePartial 24 ((a ++ b ++ c).setWidth 32 <<< 8) := by simp [tailEntry, memRead]
  have v : ((a ++ b ++ c).setWidth 32 <<< 8 : Word) = a ++ b ++ c ++ 0#8 := by
    apply BitVec.eq_of_getLsbD_eq; intro i hi
    simp only [BitVec.getLsbD_shiftLeft, BitVec.getLsbD_setWidth, BitVec.getLsbD_append]
    interval_cases i <;> simp
  have m : (a ++ b ++ c ++ 0#8 : Word) &&& ~~~(lowMask 24) = a ++ b ++ c ++ 0#8 := by
    apply BitVec.eq_of_getLsbD_eq; intro i hi
    simp only [lowMask, BitVec.getLsbD_and, BitVec.getLsbD_append]
    interval_cases i <;> simp
  simp [decodeBytes, e, v, makePartial_of_clear (by decide) (by decide) m]

end Sys2Proof.Machine
end

