-- ==== Sys2Proof/Laws/Pad.lean ====
section
/-! SUPPORT. What the padding operation can do, said once. -/

namespace Sys2Proof.Machine

/-- `paddingEnabled` is true unless it is supplied as false (42_pad.md R91). -/
@[simp] theorem resolvePe_eq (pe : Option Bool) : resolvePe pe = pe.getD true := by cases pe <;> rfl

/-- A resolved block size is positive (42_pad.md R91). -/
theorem resolveBs_pos {policy : ZeroBsPolicy} {bs : Option Int} {m : Nat} (h : resolveBs policy bs = .ok m) : 0 < m := by
  cases bs with
  | none => simp [resolveBs, defaultBs] at h; omega
  | some b =>
    simp only [resolveBs] at h
    split_ifs at h
    · split at h
      · simp [defaultBs] at h; omega
      · cases h
    · simp at h; omega

/-- With parameters that resolve, padding appends zeros; the empty buffer falls under the same formula (42_pad.md R94). -/
theorem padBytes_of_resolved {cfg : Config} {pe : Option Bool} {bs : Option Int} {m : Nat} (ib : List Byte)
    (h : resolveBs cfg.zeroBsPolicy bs = .ok m) :
    padBytes cfg pe bs ib = .ok (ib ++ List.replicate (paddedLength (pe.getD true) m ib.length - ib.length) 0#8) := by
  simp only [padBytes, h, resolvePe_eq, zeros]
  split
  · rename_i h0
    have : ib = [] := List.length_eq_zero_iff.1 h0
    subst this; simp [paddedLength]
  · rfl

/-- With a block size that does not resolve, padding raises its error, whatever else holds (42_pad.md R93). -/
theorem padBytes_of_unresolved {cfg : Config} {pe : Option Bool} {bs : Option Int} {e : CodecError} (ib : List Byte)
    (h : resolveBs cfg.zeroBsPolicy bs = .error e) : padBytes cfg pe bs ib = .error e := by
  simp [padBytes, h]

/-- Padding never shortens (42_pad.md R97). -/
theorem le_paddedLength (p : Bool) (m L : Nat) : L ≤ paddedLength p m L := by
  unfold paddedLength; split <;> omega

/-- With padding enabled the new length is a multiple of the block size (42_pad.md R92). -/
theorem paddedLength_mod {m : Nat} (hm : 0 < m) (L : Nat) : paddedLength true m L % m = 0 := by
  have e := Nat.div_add_mod L m
  have l := Nat.mod_lt L hm
  unfold paddedLength
  split
  · simp_all
  · have : L + (m - L % m) = m * (L / m + 1) := by rw [Nat.mul_add]; omega
    rw [this]; simp

end Sys2Proof.Machine
end

