-- ==== Sys2Proof/Laws/PerInstr.lean ====
section
/-! SUPPORT. What holds of every command as syntax, one lemma a constructor. -/

namespace Sys2Proof.Laws.Layout

/-- The operation code of a command (30_encoding.md R51). -/
def opCode : Instr → BitVec 2
  | .encode _ _ => 0b00#2
  | .decode => 0b01#2
  | .pad _ _ => 0b10#2
  | .dump => 0b11#2

/-- The word of a command carries its operation code in `OP` and zeros in `RSV` (30_encoding.md R51, R54). -/
def Statement (i : Instr) : Prop := opField (encodeCmd i) = opCode i ∧ rsvField (encodeCmd i) = 0#3

/-- Both fields of a packed word. -/
theorem of_packWord (pe : Option Bool) (bs : Option Int) (op : BitVec 2) :
    opField (packWord pe bs op) = op ∧ rsvField (packWord pe bs op) = 0#3 :=
  let h := fields_of_word _ _ _ _ _ _ (packWord pe bs op) rfl
  ⟨h.1, h.2.2.2.2.1⟩

theorem encode (pe : Option Bool) (bs : Option Int) : Statement (.encode pe bs) := of_packWord pe bs _

theorem decode : Statement .decode := of_packWord none none _

theorem pad (pe : Option Bool) (bs : Option Int) : Statement (.pad pe bs) := of_packWord pe bs _

theorem dump : Statement .dump := of_packWord none none _

end Sys2Proof.Laws.Layout
end

