-- ==== Sys2Proof/Tests/Slice0.lean ====
section
/-! SUPPORT. Tests on fixed values, taken from 95_test_vectors.md (the vector is named at each test) or worked out by hand
from the rule named, and for every statement with hypotheses a witness that meets them. -/

namespace Sys2Proof.Tests

open Sys2Proof Sys2Proof.Machine

/-! ### Well-formed commands: one ill-formed term for each check -/

theorem test_encode_blockSize_too_large : ¬ WellFormed (.encode none (some 2147483648)) := by decide
theorem test_encode_blockSize_too_small : ¬ WellFormed (.encode (some true) (some (-2147483649))) := by decide
theorem test_pad_blockSize_too_large : ¬ WellFormed (.pad none (some 2147483648)) := by decide
theorem test_pad_blockSize_too_small : ¬ WellFormed (.pad (some false) (some (-2147483649))) := by decide
theorem test_blockSize_at_both_ends :
    WellFormed (.pad none (some 2147483647)) ∧ WellFormed (.encode none (some (-2147483648))) := by decide

/-! ### Command words, written out bit by bit from 30_encoding.md R50: BS, RSV, BSV, PE, PEV, OP -/

/-- C6: `encode pe=0 bs=8`. -/
theorem test_word_encode :
    decodeCmd true 0b00000000000000000000000000001000_000_1_0_1_00#40 = .ok (.encode (some false) (some 8)) := by decide
/-- C7: `encode pe=1 bs=-5`. -/
theorem test_word_encode_negative :
    decodeCmd true 0b11111111111111111111111111111011_000_1_1_1_00#40 = .ok (.encode (some true) (some (-5))) := by
  decide
/-- C8: `decode`. -/
theorem test_word_decode :
    decodeCmd true 0b00000000000000000000000000000000_000_0_0_0_01#40 = .ok .decode := by decide
/-- C12: `pad bs=-1`. -/
theorem test_word_pad :
    decodeCmd true 0b11111111111111111111111111111111_000_1_0_0_10#40 = .ok (.pad none (some (-1))) := by decide
/-- C10: `pad pe=0`. -/
theorem test_word_pad_disabled :
    decodeCmd true 0b00000000000000000000000000000000_000_0_0_1_10#40 = .ok (.pad (some false) none) := by decide
/-- C15: `dump`. -/
theorem test_word_dump :
    decodeCmd true 0b00000000000000000000000000000000_000_0_0_0_11#40 = .ok .dump := by decide

/-- X1 to X8: the invalid words, each rejected by name. -/
theorem test_invalid_words :
    decodeCmd true 0x0000000020#40 = .error .reservedBitsSet ∧
    decodeCmd true 0x0000000080#40 = .error .reservedBitsSet ∧
    decodeCmd true 0x0000000008#40 = .error .enableNotSupplied ∧
    decodeCmd true 0x0000001000#40 = .error .blockSizeNotSupplied ∧
    decodeCmd true 0x0000000005#40 = .error .parameterOnDecode ∧
    decodeCmd true 0x0000001011#40 = .error .parameterOnDecode ∧
    decodeCmd true 0x0000000013#40 = .error .parameterOnDump ∧
    decodeCmd false 0x0000000003#40 = .error .dumpAbsent := by decide

/-- 30_encoding.md R62: the encoder gives the words of the table. -/
theorem test_encoder_words :
    encodeCmd (.encode (some true) (some 16)) = 0x000000101C#40 ∧ encodeCmd (.pad none (some (-1))) = 0xFFFFFFFF12#40 ∧
    encodeCmd .decode = 0x0000000001#40 ∧ encodeCmd .dump = 0x0000000003#40 := by decide

/-- 30_encoding.md R56: the entry of the partial word `0x01020300/24`; X11 and X12 are no entries. -/
theorem test_entry_words :
    entryOfBits 0x1801020300#40 = some { value := 0x01020300#32, sig := 24#8 } ∧
    entryOfBits 0x0012345678#40 = none ∧ entryOfBits 0x2112345678#40 = none := by decide

/-! ### Helpers: a state with a command in flight, and what a step answers -/

/-- The state after reset with the word `w` and its operand in flight. -/
def flying (w : CmdWord) (iw : List Entry) (ib : List Byte) : State :=
  State.reset.issue { site := 0, word := w, iw := iw, ib := ib }

/-- A full entry. -/
def full (v : Word) : Entry := { value := v, sig := 32#8 }

/-- A partial entry. -/
def partly (v : Word) (k : BitVec 8) : Entry := { value := v, sig := k }

/-- Status and result of the last response of a next state. -/
def answer : Host.Outcome State Fault Refusal → Option (Status × Result)
  | .next t => t.responses.getLast?.map fun r => (r.status, r.result)
  | .fault _ => none
  | .refused _ => none

/-- The refusal, if the outcome is one. -/
def refusal : Host.Outcome State Fault Refusal → Option Refusal
  | .next _ => none
  | .fault _ => none
  | .refused r => some r

/-- The sink after a next state. -/
def sinkOf : Host.Outcome State Fault Refusal → Option (List Record)
  | .next t => some t.sink
  | .fault _ => none
  | .refused _ => none

/-! ### One step of each command -/

/-- E7: truncate to 6 bytes, then pad to 8. -/
theorem test_encode_partial_padded :
    answer (step (flying 0x0000000410#40 [full 0xDEADBEEF#32, partly 0xCAFE0000#32 16#8] [])) =
      some (.ok, .bytes [0xDE#8, 0xAD#8, 0xBE#8, 0xEF#8, 0xCA#8, 0xFE#8, 0x00#8, 0x00#8]) := by decide

/-- E9: both errors apply, `InvalidLength` is reported. -/
theorem test_encode_error_priority :
    answer (step (flying 0xFFFFFFFF10#40 [partly 0xA0000000#32 4#8] [])) =
      some (.error .invalidLength, .bytes []) := by decide

/-- D6: a full word, then a tail of one byte in the top position. -/
theorem test_decode_tail :
    answer (step (flying 0x0000000001#40 [] [0xAA#8, 0xBB#8, 0xCC#8, 0xDD#8, 0x11#8])) =
      some (.ok, .bits [full 0xAABBCCDD#32, partly 0x11000000#32 8#8]) := by decide

/-- D10: seven bytes of ones, the low byte of the tail is 0. -/
theorem test_decode_zero_fill :
    answer (step (flying 0x0000000001#40 [] [0xFF#8, 0xFF#8, 0xFF#8, 0xFF#8, 0xFF#8, 0xFF#8, 0xFF#8])) =
      some (.ok, .bits [full 0xFFFFFFFF#32, partly 0xFFFFFF00#32 24#8]) := by decide

/-- P6: a block size that is no power of two. -/
theorem test_pad_to_five :
    answer (step (flying 0x0000000512#40 [] [0x01#8, 0x02#8, 0x03#8])) =
      some (.ok, .bytes [0x01#8, 0x02#8, 0x03#8, 0x00#8, 0x00#8]) := by decide

/-- P12: the block size is checked before the empty test. -/
theorem test_pad_empty_negative :
    answer (step (flying 0xFFFFFFFF12#40 [] [])) = some (.error .invalidArgument, .bytes []) := by decide

/-- U3: an odd length, the last byte as a group of 2 digits. -/
theorem test_dump_odd :
    sinkOf (step (flying 0x0000000003#40 [] [0x01#8, 0x02#8, 0x03#8])) =
      some [['\n', '0', '\t', '0', '1', '0', '2', ' ', '0', '3']] := by decide

/-- The start of the second line of U5: the label `10`, a byte alone. -/
theorem test_dump_second_line :
    (render (List.replicate 16 0xAB#8 ++ [0x10#8])).drop 42 = ['\n', '1', '0', '\t', '1', '0'] := by decide

/-! ### Refusals, reset, the collaborators -/

/-- X10 and X13: a partial entry that is not last is refused; W3 is relaxed and the bytes of the significant bits come out. -/
theorem test_ill_formed :
    refusal (step (flying 0x0000000004#40 [partly 0xAA000000#32 8#8, full 0x11223344#32] [])) =
      some .illFormedBitArray ∧
    answer (step (flying 0x0000000004#40 [partly 0x000000FF#32 8#8] [])) = some (.ok, .bytes [0x00#8]) := by decide

/-- 20_memory.md R39: an operand and a result beyond `MAXLEN` are refused. -/
theorem test_maxLen :
    refusal (step { flying 0x0000000001#40 [] [0x01#8, 0x02#8, 0x03#8] with
      config := { specConfig with maxLen := some 2 } }) = some .beyondMaxLen ∧
    refusal (step { flying 0x0000000002#40 [] [0x01#8, 0x02#8] with
      config := { specConfig with maxLen := some 2 } }) = some .beyondMaxLen := by decide

/-- E11 and P9 with `ZERO_BS_POLICY` = invalidArgument: an explicit block size of 0 fails. -/
theorem test_zero_policy :
    answer (step { flying 0x0000000012#40 [] [0x01#8] with
      config := { specConfig with zeroBsPolicy := .invalidArgument } }) = some (.error .invalidArgument, .bytes []) := by
  decide

/-- 70_reset_and_hazards.md R151: a `DUMP` abandoned by a reset leaves no response and no record. -/
theorem test_abandoned_dump :
    step { State.reset with host := [.issueThenReset { site := 1, word := 0x0000000003#40, iw := [], ib := [0xAB#8] }] } =
      .next State.reset := by rfl

/-- 70_reset_and_hazards.md R165 (4) with X1, X10 and 20_memory.md R39: what must be refused is refused in mid-command too. -/
theorem test_abandoned_refused :
    refusal (step { State.reset with host := [.issueThenReset { site := 1, word := 0x0000000020#40, iw := [], ib := [] }] }) =
      some (.invalidCommand .reservedBitsSet) ∧
    refusal (step { State.reset with host := [.issueThenReset
      { site := 1, word := 0x0000000004#40, iw := [partly 0xAA000000#32 8#8, full 0x11223344#32], ib := [] }] }) =
      some .illFormedBitArray ∧
    refusal (step { State.reset with
      config := { specConfig with maxLen := some 2 }
      host := [.issueThenReset { site := 1, word := 0x0000000001#40, iw := [], ib := [1#8, 2#8, 3#8] }] }) =
      some .beyondMaxLen := by decide

/-- K3 and K4: bit lengths; K6 to K8: `makePartial` at the ends of its range. -/
theorem test_collaborators :
    bitLength [full 0xAABBCCDD#32, partly 0x11000000#32 8#8] = 40 ∧ bitLength [partly 0x80000000#32 1#8] = 1 ∧
    makePartial 24 0x010203FF#32 = some (partly 0x01020300#32 24#8) ∧
    makePartial 1 0xFFFFFFFF#32 = some (partly 0x80000000#32 1#8) ∧
    makePartial 31 0xFFFFFFFF#32 = some (partly 0xFFFFFFFE#32 31#8) ∧ makePartial 32 0xFFFFFFFF#32 = none := by decide

/-- The words handed to a decoder and to a step as the opcode table numbers them. -/
theorem test_table_words :
    decodeTableWord 40 0x0000000512 = some (.pad none (some 5)) ∧ decodeTableWord 40 0x0000000020 = none ∧
    answer (step (State.reset.withFetchWord 40 0x0000000001)) = some (.ok, .bits []) := by decide

/-! ### Witnesses: for every statement with hypotheses, values that meet all of them, at the ends of their ranges -/

/-- A command with an operand in each input space. -/
def sample (w : CmdWord) (iw : List Entry) (ib : List Byte) : Command := { site := 7, word := w, iw := iw, ib := ib }

/-- The state after reset with a command in flight. -/
def inState (c : Command) : State := State.reset.issue c

/-- The parameters with `MAXLEN` = `n`. -/
def bounded (n : Nat) : Config := { specConfig with maxLen := some n }

theorem witness_CommandWordRoundTrip :
    WellFormed (.pad none (some 2147483647)) ∧ WellFormed (.encode (some false) (some (-2147483648))) ∧
    WellFormed .dump ∧ decodeCmd true (encodeCmd .dump) = .ok .dump ∧ decodeCmd false 0x0000000001#40 = .ok .decode := by
  decide

theorem witness_CommandWordLayout :
    blockSizeFits (some 2147483647) = true ∧ blockSizeFits (some (-2147483648)) = true ∧ blockSizeFits none = true := by
  decide

theorem witness_EntryBoundaryForm :
    1 ≤ (partly 0x80000000#32 1#8).sig.toNat ∧ (partly 0x80000000#32 1#8).sig.toNat ≤ 32 ∧
    1 ≤ (full 0x00000000#32).sig.toNat ∧ (full 0x00000000#32).sig.toNat ≤ 32 ∧
    entryOfBits 0x0180000000#40 = some (partly 0x80000000#32 1#8) ∧
    entryOfBits 0x2000000000#40 = some (full 0x00000000#32) := by decide

theorem witness_BitLengthIsSumOfTags :
    [full 1#32, partly 0#32 32#8].getLast? = some (partly 0#32 32#8) ∧
    admissible [full 1#32, partly 0x80000000#32 1#8] = true ∧ admissible [] = true := by decide

theorem witness_MakePartialKeepsTopBits :
    (1 ≤ 1 ∧ 1 ≤ 31) ∧ (1 ≤ 31 ∧ 31 ≤ 31) ∧ (0 = 0 ∨ 32 ≤ 0) ∧ (32 = 0 ∨ 32 ≤ 32) ∧
    (makePartial 1 0xFFFFFFFF#32).isSome = true ∧ (makePartial 31 0#32).isSome = true ∧
    makePartial 0 0#32 = none ∧ makePartial 32 0#32 = none := by decide

theorem witness_BitStringDeterminesArray :
    wf [full 5#32, partly 0x80000000#32 1#8] = true ∧ wf [full 5#32, partly 0xFFFFFFFF#32 32#8] = true ∧
    bits [partly 0xA0000000#32 4#8] = bits [partly 0xA0000000#32 4#8] := by decide

theorem witness_WordBytesRoundTrip :
    (bytes4 0xAABBCCDD#32)[0]? = some 0xAA#8 ∧ (bytes4 0xAABBCCDD#32)[3]? = some 0xDD#8 ∧
    bytes4 (wordOf [0xAA#8]) = [0xAA#8, 0#8, 0#8, 0#8] ∧ 0 + 4 ≤ [1#8, 2#8, 3#8, 4#8].length ∧
    3 + 1 ≤ [1#8, 2#8, 3#8, 4#8].length := by decide

theorem witness_HalfwordInsideWord :
    (0 - 0 % 4 + 4 ≤ [1#8, 2#8, 3#8, 4#8].length ∧ 0 % 4 = 0) ∧
    (2 - 2 % 4 + 4 ≤ [1#8, 2#8, 3#8, 4#8].length ∧ 2 % 4 = 2) ∧
    memRead [1#8, 2#8, 3#8, 4#8] 0 2 = 0x0102#32 ∧ memRead [1#8, 2#8, 3#8, 4#8] 2 2 = 0x0304#32 := by decide

theorem witness_MemReadAfterMemWrite :
    (1 ≤ 1 ∧ 1 ≤ 4 ∧ 4 + 1 ≤ [1#8, 2#8, 3#8, 4#8, 5#8].length) ∧
    (1 ≤ 4 ∧ 4 ≤ 4 ∧ 1 + 4 ≤ [1#8, 2#8, 3#8, 4#8, 5#8].length) ∧
    memWrite [1#8, 2#8, 3#8, 4#8, 5#8] 4 1 0xAABBCCDD#32 = [1#8, 2#8, 3#8, 4#8, 0xDD#8] ∧
    memWrite [1#8, 2#8, 3#8, 4#8, 5#8] 1 4 0xAABBCCDD#32 = [1#8, 0xAA#8, 0xBB#8, 0xCC#8, 0xDD#8] := by decide

/-- E7, every hypothesis of the statement. -/
theorem witness_EncodeAnswersTheBytes :
    let c := sample 0x0000000410#40 [full 0xDEADBEEF#32, partly 0xCAFE0000#32 16#8] []
    (inState c).inFlight = some c ∧ admissible c.iw = true ∧ c.iw.getLast? = some (partly 0xCAFE0000#32 16#8) ∧
    (partly 0xCAFE0000#32 16#8).sig.toNat % 8 = 0 ∧ resolveBs (inState c).config.zeroBsPolicy (some 4) = .ok 4 ∧
    6 = 4 * (c.iw.length - 1) + (partly 0xCAFE0000#32 16#8).sig.toNat / 8 ∧
    2 = (if (none : Option Bool).getD true = false ∨ 6 % 4 = 0 then 0 else 4 - 6 % 4) ∧
    [0xDE#8, 0xAD#8, 0xBE#8, 0xEF#8, 0xCA#8, 0xFE#8] = (c.iw.flatMap fun e =>
      [e.value.extractLsb' 24 8, e.value.extractLsb' 16 8, e.value.extractLsb' 8 8, e.value.extractLsb' 0 8]).take 6 ∧
    admitsLength (inState c).config c.iw.length = true ∧ admitsLength (inState c).config (6 + 2) = true := by decide

theorem witness_EncodeInvalidLengthExactly :
    let c := sample 0x0000000004#40 [full 0xFFFFFFFF#32, partly 0xFFE00000#32 12#8] []
    (inState c).inFlight = some c ∧ admissible c.iw = true ∧ admitsLength (inState c).config c.iw.length = true ∧
    (c.iw ≠ [] ∧ bitLength c.iw % 8 ≠ 0) ∧ c.iw.getLast? = some (partly 0xFFE00000#32 12#8) := by decide

/-- P13 and E10b for the two clauses; a block size of 0 under the other policy. -/
theorem witness_InvalidArgumentExactly :
    let c := sample 0xFFFFFFFF14#40 [partly 0xAB000000#32 8#8] [0xAA#8]
    (inState c).inFlight = some c ∧ admitsLength (inState c).config c.ib.length = true ∧ admissible c.iw = true ∧
    admitsLength (inState c).config c.iw.length = true ∧
    answer (exec (.pad (some false) (some (-1))) (inState c)) = some (.error .invalidArgument, .bytes []) ∧
    answer (exec (.encode (some false) (some (-1))) (inState c)) = some (.error .invalidArgument, .bytes []) ∧
    answer (exec (.pad none (some 0)) { inState c with config := { specConfig with zeroBsPolicy := .invalidArgument } }) =
      some (.error .invalidArgument, .bytes []) := by decide

theorem witness_EncodeIgnoresInsignificantBits :
    let c := sample 0x0000000004#40 [partly 0xAB000000#32 8#8] []
    let c' := sample 0x0000000004#40 [partly 0xAB0000FF#32 8#8] []
    c'.site = c.site ∧ admissible c.iw = true ∧
    c'.iw.map (fun e => e.sig) = c.iw.map (fun e => e.sig) ∧ bits c'.iw = bits c.iw ∧ c'.iw ≠ c.iw := by decide

/-- One operand for each of the tags 8, 16 and 24. -/
theorem witness_PartialWordTruncation :
    let hyps := fun (c : Command) (last : Entry) (k : Nat) =>
      (inState c).inFlight = some c ∧ wf c.iw = true ∧ c.iw.getLast? = some last ∧ last.sig.toNat = k ∧
      (k = 8 ∨ k = 16 ∨ k = 24) ∧ admitsLength (inState c).config (4 * (c.iw.length - 1) + k / 8) = true
    hyps (sample 4#40 [partly 0xAB000000#32 8#8] []) (partly 0xAB000000#32 8#8) 8 ∧
    hyps (sample 4#40 [full 1#32, partly 0xCAFE0000#32 16#8] []) (partly 0xCAFE0000#32 16#8) 16 ∧
    hyps (sample 4#40 [partly 0x01020300#32 24#8] []) (partly 0x01020300#32 24#8) 24 := by decide

/-- Operands of 4, 5, 6 and 7 bytes: one for each clause. -/
theorem witness_DecodeAnswersTheWords :
    let c := sample 1#40 [] [1#8, 2#8, 3#8, 4#8]
    let c1 := sample 1#40 [] [1#8, 2#8, 3#8, 4#8, 5#8]
    let c2 := sample 1#40 [] [1#8, 2#8, 3#8, 4#8, 5#8, 6#8]
    let c3 := sample 1#40 [] [1#8, 2#8, 3#8, 4#8, 5#8, 6#8, 7#8]
    (inState c).inFlight = some c ∧ admitsLength (inState c).config c.ib.length = true ∧
    admitsLength (bounded 4) c.ib.length = true ∧
    (c.ib[0]? = some 1#8 ∧ c.ib[1]? = some 2#8 ∧ c.ib[2]? = some 3#8 ∧ c.ib[3]? = some 4#8) ∧
    (c1.ib.length = 4 * 1 + 1 ∧ c1.ib[4]? = some 5#8) ∧
    (c2.ib.length = 4 * 1 + 2 ∧ c2.ib[4]? = some 5#8 ∧ c2.ib[5]? = some 6#8) ∧
    (c3.ib.length = 4 * 1 + 3 ∧ c3.ib[4]? = some 5#8 ∧ c3.ib[5]? = some 6#8 ∧ c3.ib[6]? = some 7#8) := by decide

theorem witness_DecodeResultShape :
    let c := sample 1#40 [] []
    (inState c).inFlight = some c ∧ admitsLength (bounded 0) c.ib.length = true := by decide

/-- The three ways a block size resolves; the third at 1, where nothing is appended, and at 5. -/
theorem witness_PadAppendsZeros :
    let c := sample 2#40 [] [1#8, 2#8, 3#8]
    (inState c).inFlight = some c ∧ (inState c).config.zeroBsPolicy = .default16 ∧
    13 = (if (none : Option Bool).getD true = false ∨ c.ib.length % 16 = 0 then 0 else 16 - c.ib.length % 16) ∧
    0 = (if (some true).getD true = false ∨ c.ib.length % 1 = 0 then 0 else 1 - c.ib.length % 1) ∧
    2 = (if (some true).getD true = false ∨ c.ib.length % 5 = 0 then 0 else 5 - c.ib.length % 5) ∧
    0 = (if (some false).getD true = false ∨ c.ib.length % 5 = 0 then 0 else 5 - c.ib.length % 5) ∧
    admitsLength (inState c).config c.ib.length = true ∧ admitsLength (bounded 5) (c.ib.length + 2) = true ∧
    admitsLength (inState c).config (c.ib.length + 13) = true := by decide

theorem witness_PaddedLengthIsAligned :
    let c := sample 2#40 [partly 0x01020300#32 24#8] [1#8, 2#8, 3#8]
    let ob := [1#8, 2#8, 3#8, 0#8, 0#8]
    0 < 5 ∧ (inState c).inFlight = some c ∧
    answer (exec (.pad (some true) (some 5)) (inState c)) = some (.ok, .bytes ob) ∧
    answer (exec (.encode (some true) (some 5)) (inState c)) = some (.ok, .bytes ob) ∧
    answer (exec (.pad (some false) (some 5)) (inState c)) = some (.ok, .bytes [1#8, 2#8, 3#8]) := by decide

theorem witness_PadIsIdempotent :
    let c := sample 2#40 [] [1#8, 2#8, 3#8]
    exec (.pad (some true) (some 5)) (State.reset.issue c) =
      .next (State.reset.answered c .ok (.bytes [1#8, 2#8, 3#8, 0#8, 0#8])) := by rfl

theorem witness_PadBoundAndPrefix :
    let c := sample 2#40 [] [1#8, 2#8, 3#8]
    (inState c).inFlight = some c ∧ resolveBs (inState c).config.zeroBsPolicy (some 5) = .ok 5 ∧
    answer (exec (.pad none (some 5)) (inState c)) = some (.ok, .bytes [1#8, 2#8, 3#8, 0#8, 0#8]) := by decide

theorem witness_DumpAppendsOneRecord :
    let c := sample 3#40 [] [0xAB#8]
    (inState c).inFlight = some c ∧ admitsLength (inState c).config c.ib.length = true ∧
    sinkOf (exec .dump (inState c)) = some [['\n', '0', '\t', 'A', 'B']] ∧
    sinkOf (exec .dump ((inState c).attach false)) = some [] := by decide

theorem witness_HexTextIsPositional :
    255 < 256 ∧ hex2 255 = ['F', 'F'] ∧ hexNat 0 = ['0'] ∧ hexNat 256 = ['1', '0', '0'] := by decide

/-- A state whose `MAXLEN` the operand reaches exactly; the inner hypotheses for the array that `DECODE` answers. -/
theorem witness_RoundTripFromBytes :
    let s : State := { State.reset with config := bounded 3 }
    let c := sample 1#40 [] [1#8, 2#8, 3#8]
    let d := sample 4#40 [partly 0x01020300#32 24#8] []
    admitsLength s.config c.ib.length = true ∧
    answer (exec .decode (s.issue c)) = some (.ok, .bits [partly 0x01020300#32 24#8]) ∧
    d.iw = [partly 0x01020300#32 24#8] ∧ resolveBs s.config.zeroBsPolicy none = .ok 16 := by decide

/-- A state whose `MAXLEN` the result reaches exactly; the inner hypotheses for the buffer that `ENCODE` answers. -/
theorem witness_RoundTripFromBits :
    let s : State := { State.reset with config := bounded 5 }
    let c := sample 4#40 [full 0xDEADBEEF#32, partly 0xCA000000#32 8#8] []
    let d := sample 1#40 [] [0xDE#8, 0xAD#8, 0xBE#8, 0xEF#8, 0xCA#8]
    admitsLength s.config (bitLength c.iw / 8) = true ∧ admissible c.iw = true ∧ bitLength c.iw % 8 = 0 ∧
    wf c.iw = true ∧ answer (exec (.encode (some false) none) (s.issue c)) = some (.ok, .bytes d.ib) := by decide

/-- A state whose `MAXLEN` the padded result reaches exactly. -/
theorem witness_InverseModuloPadding :
    let s : State := { State.reset with config := bounded 8 }
    let c := sample 4#40 [full 0xDEADBEEF#32, partly 0xCA000000#32 8#8] []
    admissible c.iw = true ∧ bitLength c.iw % 8 = 0 ∧ resolveBs s.config.zeroBsPolicy (some 4) = .ok 4 ∧
    admitsLength s.config (paddedLength ((none : Option Bool).getD true) 4 (bitLength c.iw / 8)) = true := by decide

theorem witness_ResultLengths :
    let c := sample 4#40 [full 0xDEADBEEF#32] [1#8, 2#8, 3#8]
    exec (.encode (some false) none) (State.reset.issue c) =
      .next (State.reset.answered c .ok (.bytes [0xDE#8, 0xAD#8, 0xBE#8, 0xEF#8])) ∧
    exec .decode (State.reset.issue c) =
      .next (State.reset.answered c .ok (.bits [partly 0x01020300#32 24#8])) := ⟨by rfl, by rfl⟩

theorem witness_EmptyInputIdentity :
    let c := sample 0xFFFFFFFF12#40 [] []
    (inState c).inFlight = some c ∧ c.iw = [] ∧ c.ib = [] ∧
    resolveBs (inState c).config.zeroBsPolicy (some 1) = .ok 1 ∧ (-1 : Int) < 0 := by decide

/-- A next state for each command. -/
theorem witness_StatusByCommand :
    let c := sample 0#40 [full 1#32] [1#8]
    (answer (exec (.encode none none) (inState c))).isSome = true ∧ (answer (exec .decode (inState c))).isSome = true ∧
    (answer (exec (.pad none none) (inState c))).isSome = true ∧ (answer (exec .dump (inState c))).isSome = true := by
  decide

theorem witness_ErrorEntry :
    let c := sample 4#40 [partly 0x80000000#32 1#8] []
    exec (.encode (some false) none) (inState c) =
      .next ((inState c).answered c (.error .invalidLength) (.bytes [])) := by rfl

/-- Each of the three ways a command comes to a step; each refusal; an operand and a result beyond `MAXLEN`. -/
theorem witness_RefusedExactlyOutsideContract :
    let bad := sample 0x20#40 [] []
    let ill := sample 0#40 [partly 0#32 0#8] []
    let long := sample 2#40 [] [1#8, 2#8, 3#8]
    let s1 := inState bad
    let s2 : State := { State.reset with host := [.issue ill] }
    let s3 : State := { State.reset with host := [.issueThenReset long], config := bounded 2 }
    let s4 : State := { State.reset with host := [.issueThenReset long], config := bounded 3 }
    (s1.nextCommand bad ∨ s1.abandonedCommand bad) ∧ (s2.nextCommand ill ∨ s2.abandonedCommand ill) ∧
    (s3.nextCommand long ∨ s3.abandonedCommand long) ∧ (s4.nextCommand long ∨ s4.abandonedCommand long) ∧
    refusal (step s1) = some (.invalidCommand .reservedBitsSet) ∧ refusal (step s2) = some .illFormedBitArray ∧
    (refusal (step s3) = some .beyondMaxLen ∧ long.operandFits s3.config (.pad none none) = false) ∧
    (refusal (step s4) = some .beyondMaxLen ∧ long.operandFits s4.config (.pad none none) = true ∧
      long.resultFits s4.config (.pad none none) = false) := by
  refine ⟨.inl (.inl rfl), .inl (.inr ⟨rfl, rfl⟩), .inr ⟨rfl, rfl⟩, .inr ⟨rfl, rfl⟩, ?_, ?_, ?_, ?_⟩ <;> decide

theorem witness_StepRunsTheDecodedCommand :
    let c := sample 1#40 [] [1#8]
    decodeCmd State.reset.config.hasDump c.word = .ok .decode ∧ (inState c).inFlight = some c ∧
    ({ State.reset with host := [.issue c, .reset] } : State).inFlight = none ∧
    ({ State.reset with host := [.issue c, .reset] } : State).host = .issue c :: [.reset] := by decide

/-- One state for each clause. -/
theorem witness_StepsWithoutResponse :
    let c := sample 3#40 [] [1#8]
    State.reset.inFlight = none ∧ State.reset.host = [] ∧
    ({ State.reset with host := [.issueThenReset c] } : State).host = .issueThenReset c :: [] ∧
    c.withinContract State.reset.config = true ∧
    ({ State.reset with host := [.reset] } : State).host = .reset :: [] ∧
    ({ State.reset with host := [.setSink false] } : State).host = .setSink false :: [] := by decide

/-- One command within the contract for each mnemonic, `MAXLEN` reached exactly. -/
theorem witness_AdmittedCommandGetsOneResponse :
    let c1 := sample 0#40 [full 1#32] []
    let c2 := sample 1#40 [] [1#8]
    let c3 := sample 2#40 [] [1#8]
    let c4 := sample 3#40 [] [1#8]
    let s1 : State := { inState c1 with config := bounded 16 }
    let s2 : State := { inState c2 with config := bounded 1 }
    let s3 : State := { State.reset with config := bounded 16, host := [.issue c3] }
    let s4 : State := { State.reset with config := bounded 1, host := [.issue c4] }
    (s1.nextCommand c1 ∧ c1.withinContract s1.config = true) ∧ (s2.nextCommand c2 ∧ c2.withinContract s2.config = true) ∧
    (s3.nextCommand c3 ∧ c3.withinContract s3.config = true) ∧ (s4.nextCommand c4 ∧ c4.withinContract s4.config = true) := by
  refine ⟨⟨.inl rfl, ?_⟩, ⟨.inl rfl, ?_⟩, ⟨.inr ⟨rfl, rfl⟩, ?_⟩, ⟨.inr ⟨rfl, rfl⟩, ?_⟩⟩ <;> decide

/-- A step that answers a next state, which is the hypothesis of the statements about every step. -/
theorem witness_StepLeavesNothingInFlight :
    let c := sample 1#40 [] [1#8]
    step (inState c) = .next ((inState c).answered c .ok (.bits [partly 0x01000000#32 8#8])) := by rfl

/-- A step that appends a response and a record. -/
theorem witness_ResponsesAndSinkOnlyGrow :
    let c := sample 3#40 [] [0xAB#8]
    step (inState c) = .next
      { (inState c).answered c .ok .nothing with sink := [['\n', '0', '\t', 'A', 'B']] } := by rfl

theorem witness_StepKeepsResponsesLegal :
    let c := sample 1#40 [] [1#8]
    (inState c).responsesLegal = true ∧ (answer (step (inState c))).isSome = true := by decide

theorem witness_ResponseDependsOnCommandAlone :
    let c := sample 3#40 [] [1#8]
    (inState c).nextCommand c ∧ ({ State.reset with host := [.issue c], sinkPresent := false } : State).nextCommand c ∧
    (answer (step (inState c))).isSome = true := by
  refine ⟨.inl rfl, .inr ⟨rfl, rfl⟩, ?_⟩; decide

/-- PR5, the two `DUMP` commands in either order. -/
theorem witness_InterleavingChangesNoResponse :
    let a := sample 3#40 [] [0x01#8, 0x02#8, 0x03#8]
    let b := sample 3#40 [] [0xAA#8, 0xBB#8]
    State.reset.inFlight = none ∧
    sinkOf (State.run 2 { State.reset with host := [.issue a, .issue b] }) =
      some [['\n', '0', '\t', '0', '1', '0', '2', ' ', '0', '3'], ['\n', '0', '\t', 'A', 'A', 'B', 'B']] ∧
    sinkOf (State.run 2 { State.reset with host := [.issue b, .issue a] }) =
      some [['\n', '0', '\t', 'A', 'A', 'B', 'B'], ['\n', '0', '\t', '0', '1', '0', '2', ' ', '0', '3']] := by decide

/-- A `DUMP` answered and a `DUMP` abandoned, both dropped, and a `DECODE` between them. -/
theorem witness_DroppingDumpsChangesNoOtherResponse :
    let a := sample 3#40 [] [1#8]
    let b := sample 1#40 [] [0xAA#8, 0xBB#8]
    let actions := [HostAction.issue a, .issue b, .issueThenReset a]
    State.reset.inFlight = none ∧
    answer (State.run actions.length { State.reset with host := actions }) =
      some (.ok, .bits [partly 0xAABB0000#32 16#8]) ∧
    (actions.filter fun x => !x.isDump State.reset.config.hasDump) = [.issue b] := by decide

/-- 30_encoding.md R58: the status codes, and that `11` names none. -/
theorem test_status_codes :
    Status.ok.code = 0b00#2 ∧ (Status.error .invalidLength).code = 0b01#2 ∧
    (Status.error .invalidArgument).code = 0b10#2 ∧
    statusOfCode 0b00#2 = some .ok ∧ statusOfCode 0b01#2 = some (.error .invalidLength) ∧
    statusOfCode 0b10#2 = some (.error .invalidArgument) ∧ statusOfCode 0b11#2 = none := by decide

end Sys2Proof.Tests
end

section
/-! The obligations of 00_scope.md: the buffer notation `MemRead` and `MemWrite`, a step without a command left over, the
decoded command, and reset. -/

namespace Sys2Proof.Machine

/-! ### `MemWrite` and what `MemRead` finds afterwards (00_scope.md R8) -/

/-- `MemWrite` writes `n` bytes of the word. -/
theorem bytes4_drop_length (v : Word) {n : Nat} (hn : n ≤ 4) : ((bytes4 v).drop (4 - n)).length = n := by
  rw [List.length_drop, bytes4_length]; omega

/-- The last `n` bytes of a word, read as one value, are its `8 * n` low bits: their lanes adjoin, so they join to one. -/
theorem bigEndian_bytes4_drop (v : Word) {n : Nat} (h1 : 1 ≤ n) (hn : n ≤ 4) :
    bigEndian ((bytes4 v).drop (4 - n)) = (v.setWidth (8 * n)).setWidth 32 := by
  obtain rfl | rfl | rfl | rfl : n = 1 ∨ n = 2 ∨ n = 3 ∨ n = 4 := by omega
  · exact bigEndian_one _
  · refine (bigEndian_two _ _).trans (congrArg (BitVec.setWidth 32) ?_)
    exact BitVec.extractLsb'_append_extractLsb'_eq_extractLsb' rfl
  · refine (bigEndian_three _ _ _).trans (congrArg (BitVec.setWidth 32) ?_)
    simp (disch := rfl) only [byteOfWord, BitVec.extractLsb'_append_extractLsb'_eq_extractLsb']
    rfl
  · refine (bigEndian_four _ _ _ _).trans ?_
    simp (disch := rfl) only [byteOfWord, BitVec.extractLsb'_append_extractLsb'_eq_extractLsb']
    exact BitVec.extractLsb'_eq_self.trans (by simp)

theorem memWrite_length (ob : List Byte) {addr n : Nat} (v : Word) (hn : n ≤ 4) (h : addr + n ≤ ob.length) :
    (memWrite ob addr n v).length = ob.length := by
  simp only [memWrite, List.length_append, List.length_take, List.length_drop, bytes4_drop_length v hn]; omega

/-- What stands at `addr` after `MemWrite` is what was written there. -/
theorem memWrite_window (ob : List Byte) {addr n : Nat} (v : Word) (hn : n ≤ 4) (h : addr + n ≤ ob.length) :
    ((memWrite ob addr n v).drop addr).take n = (bytes4 v).drop (4 - n) := by
  have before : (ob.take addr).length = addr := List.length_take_of_le (by omega)
  rw [memWrite, List.append_assoc, List.drop_left' before, List.take_left' (bytes4_drop_length v hn)]

/-- `MemRead` gives the `8 * n` low bits of the value written, zero-extended. -/
theorem memRead_memWrite (ob : List Byte) {addr n : Nat} (v : Word) (h1 : 1 ≤ n) (hn : n ≤ 4)
    (h : addr + n ≤ ob.length) : memRead (memWrite ob addr n v) addr n = (v.setWidth (8 * n)).setWidth 32 := by
  rw [memRead, memWrite_window ob v hn h, bigEndian_bytes4_drop v h1 hn]

/-- The frame of `MemWrite`: no byte outside `addr .. addr + n - 1` changes. -/
theorem memWrite_getElem?_outside (ob : List Byte) {addr n : Nat} (v : Word) (hn : n ≤ 4) (h : addr + n ≤ ob.length)
    {j : Nat} (hj : j < addr ∨ addr + n ≤ j) : (memWrite ob addr n v)[j]? = ob[j]? := by
  have before : (ob.take addr).length = addr := List.length_take_of_le (by omega)
  have written : (ob.take addr ++ (bytes4 v).drop (4 - n)).length = addr + n := by
    rw [List.length_append, before, bytes4_drop_length v hn]
  obtain hlt | hge := hj
  · rw [memWrite, List.append_assoc, List.getElem?_append_left (by omega), List.getElem?_take_of_lt hlt]
  · rw [memWrite, List.getElem?_append_right (by omega), written, List.getElem?_drop, Nat.add_sub_cancel' hge]

/-- Settles O12: the window at `addr` holds the low bytes of the value, and everything outside it is as before. -/
theorem memReadAfterMemWrite : Obligations.MemReadAfterMemWrite := by
  intro ob addr n v h1 hn h
  refine ⟨memWrite_length ob v hn h, fun k hk => ?_, fun k hk => ?_, fun j hj => memWrite_getElem?_outside ob v hn h hj⟩
  · have hk32 : k < 32 := by omega
    simp [memRead_memWrite ob v h1 hn h, hk, hk32]
  · simp [memRead_memWrite ob v h1 hn h, Nat.not_lt.2 hk]

/-! ### Steps (00_scope.md R5, R7) -/

/-- A valid word runs the meaning of its command. -/
theorem runWord_of_decodeCmd {s : State} {word : CmdWord} {i : Instr} (h : decodeCmd s.config.hasDump word = .ok i) :
    runWord word s = exec i s := by
  simp [runWord, decodeFetched, h]

/-- Settles O40: a step that runs a command answers it, and any other step finds no command and changes no parameter. -/
theorem stepLeavesNothingInFlight : Obligations.StepLeavesNothingInFlight := by
  intro s t h
  obtain ⟨c, hc⟩ | ⟨c, r, -, hr⟩ | ⟨u, hu, hflight, hconfig, -, -⟩ := step_cases s
  · obtain ⟨i, a, -, -, rfl⟩ := step_answered hc h
    exact ⟨rfl, s.loaded_config⟩
  · cases hr.symm.trans h
  · cases hu.symm.trans h
    exact ⟨hflight, hconfig⟩

/-- Settles O35: in flight or issued next, a valid word reaches `runWord` with its command in flight. -/
theorem stepRunsTheDecodedCommand : Obligations.StepRunsTheDecodedCommand := by
  intro s c i hd
  refine ⟨fun h => ?_, fun rest h hh => ?_⟩
  · rw [step_inFlight h, runWord_of_decodeCmd hd]
  · rw [step_issue h hh]
    exact runWord_of_decodeCmd hd

/-! ### Reset (10_state.md R27) -/

/-- Settles O37: each value is the one `State.reset` and the parameters are defined with. -/
theorem resetState : Obligations.ResetState := ⟨rfl, rfl, rfl, rfl, rfl⟩

end Sys2Proof.Machine
end

section
/-! The obligations of 10_state.md: well-formed bit arrays, their length and bit string, partial entries, and what a step
leaves in the responses and the sink. -/

namespace Sys2Proof.Machine

/-! ### W1, W2 and W3, index by index (10_state.md R14) -/

theorem fullButLast_iff (a : List Entry) :
    fullButLast a = true ↔ ∀ i e, i + 1 < a.length → a[i]? = some e → e.sig = 32#8 := by
  simp only [fullButLast, List.all_eq_true, List.mem_iff_getElem?, List.getElem?_dropLast, decide_eq_true_eq]
  constructor
  · intro h i e hi he
    exact h e ⟨i, by rw [if_pos (by omega), he]⟩
  · rintro h e ⟨i, hi⟩
    obtain ⟨hlt, he⟩ := Option.ite_none_right_eq_some.1 hi
    exact h i e (by omega) he

theorem lastTagLegal_iff (a : List Entry) :
    lastTagLegal a = true ↔ ∀ e, a[a.length - 1]? = some e → 1 ≤ e.sig.toNat ∧ e.sig.toNat ≤ 32 := by
  simp only [lastTagLegal, List.getLast?_eq_getElem?, Option.all_eq_true, legalSig_iff]

/-- The bits under `lowMask k` are 0 exactly when each of the `32 - k` lowest bits is. -/
theorem and_lowMask_eq_zero_iff (v : Word) (k : Nat) :
    v &&& lowMask k = 0#32 ↔ ∀ j, j < 32 - k → v.getLsbD j = false := by
  constructor
  · intro h j hj
    have bit : (v &&& lowMask k).getLsbD j = false := by simp [h]
    simpa [lowMask_getLsbD k j (by omega), hj] using bit
  · intro h
    apply BitVec.eq_of_getLsbD_eq
    intro j hj
    by_cases hk : j < 32 - k
    · simp [h j hk]
    · simp [lowMask_getLsbD k j hj, hk]

theorem lowBitsZero_iff (a : List Entry) :
    lowBitsZero a = true ↔ ∀ e ∈ a, ∀ j, j < 32 - e.sig.toNat → e.value.getLsbD j = false := by
  simp [lowBitsZero, and_lowMask_eq_zero_iff]

/-- Settles O6: each of the three list checks is its rule read at every index. -/
theorem wellFormedIsW1W2W3 : Obligations.WellFormedIsW1W2W3 := by
  intro a
  constructor
  · rw [admissible, Bool.and_eq_true, fullButLast_iff, lastTagLegal_iff]
  · rw [wf, Bool.and_eq_true, lowBitsZero_iff]
    refine and_congr_right fun _ => ⟨fun h i e he => h e (List.mem_of_getElem? he), fun h e he => ?_⟩
    obtain ⟨i, hi⟩ := List.mem_iff_getElem?.1 he
    exact h i e hi

/-! ### `bitLength` (10_state.md R15) -/

/-- On an admissible array the bit length is the sum of the tags: every entry but the last adds its tag 32. -/
theorem bitLength_eq_sum_of_admissible : ∀ {a : List Entry}, admissible a = true →
    bitLength a = (a.map fun e => e.sig.toNat).sum
  | [], _ => rfl
  | [e], _ => by simp
  | e :: e' :: rest, h => by
    obtain ⟨hfull, hrest⟩ : e.sig = 32#8 ∧ admissible (e' :: rest) = true := by simpa using h
    simp [bitLength_eq_sum_of_admissible hrest, hfull]

/-- Settles O7: the formula is the definition, and the sum follows by W1. -/
theorem bitLengthIsSumOfTags : Obligations.BitLengthIsSumOfTags :=
  ⟨bitLength_nil, fun _ _ h => by simp [bitLength, h], fun _ => bitLength_eq_sum_of_admissible⟩

/-! ### `makePartial` (10_state.md R16) -/

/-- Clearing the bits under `lowMask k` keeps the `k` top bits and no other. -/
theorem getMsbD_and_not_lowMask (v : Word) {k t : Nat} (hk : k ≤ 32) (ht : t < 32) :
    (v &&& ~~~(lowMask k)).getMsbD t = (v.getMsbD t && decide (t < k)) := by
  have mask : (lowMask k).getMsbD t = decide (k ≤ t) := by
    rw [BitVec.getMsbD_eq_getLsbD, lowMask_getLsbD k _ (by omega), decide_eq_true ht, Bool.true_and]
    exact decide_eq_decide.2 (by omega)
  simp [mask, ht, ← decide_not]

/-- Settles O8: the value is the word with the bits under the mask cleared, and the tag fits its 8 bits. -/
theorem makePartialKeepsTopBits : Obligations.MakePartialKeepsTopBits := by
  intro k v
  constructor
  · rintro ⟨h1, h31⟩
    refine ⟨_, if_pos ⟨h1, h31⟩, ?_, fun t ht => ?_, fun t ht h32 => ?_⟩
    · exact Nat.mod_eq_of_lt (by omega)
    · rw [getMsbD_and_not_lowMask v (by omega) (by omega), decide_eq_true ht, Bool.and_true]
    · rw [getMsbD_and_not_lowMask v (by omega) h32, decide_eq_false (by omega), Bool.and_false]
  · intro h
    exact if_neg (by omega)

/-! ### The bit string (10_state.md R17) -/

theorem bits_length (a : List Entry) : (bits a).length = (a.map fun e => e.sig.toNat).sum := by
  simp [bits, List.length_flatMap]

/-- The first entry of an admissible array is the last one, with a legal tag, or a full word before an admissible array. -/
theorem admissible_cons_cases {e : Entry} {rest : List Entry} (h : admissible (e :: rest) = true) :
    (rest = [] ∧ 1 ≤ e.sig.toNat ∧ e.sig.toNat ≤ 32) ∨ (e.sig = 32#8 ∧ admissible rest = true) := by
  cases rest with
  | nil => exact .inl ⟨rfl, (legalSig_iff _).1 (by simpa using h)⟩
  | cons e' rest => exact .inr (by simpa using h)

/-- W1 to W3 of an array are those of its first entry and of the rest. -/
theorem wf_cons {e : Entry} {rest : List Entry} (h : wf (e :: rest) = true) :
    admissible (e :: rest) = true ∧ (∀ j, j < 32 - e.sig.toNat → e.value.getLsbD j = false) ∧ wf rest = true := by
  obtain ⟨ha, hlow⟩ : admissible (e :: rest) = true ∧ lowBitsZero (e :: rest) = true := by simpa [wf] using h
  obtain ⟨he, hrest⟩ := List.forall_mem_cons.1 ((lowBitsZero_iff _).1 hlow)
  refine ⟨ha, he, ?_⟩
  rw [wf, (lowBitsZero_iff rest).2 hrest, Bool.and_true]
  obtain ⟨rfl, -, -⟩ | ⟨-, hrest⟩ := admissible_cons_cases ha
  · rfl
  · exact hrest

/-- The length of the bit string fixes the first tag: 32 if more bits follow it, and else all the bits there are. -/
theorem head_sig_eq_min {e : Entry} {rest : List Entry} (h : admissible (e :: rest) = true) :
    e.sig.toNat = min 32 (bits (e :: rest)).length := by
  obtain ⟨rfl, -, hle⟩ | ⟨hfull, -⟩ := admissible_cons_cases h
  · simpa using hle
  · simp [hfull]

theorem bits_cons_ne_nil {e : Entry} {rest : List Entry} (h : admissible (e :: rest) = true) :
    bits (e :: rest) ≠ [] := by
  intro hnil
  have hzero : e.sig.toNat = 0 := by simpa [hnil] using head_sig_eq_min h
  obtain ⟨-, hpos, -⟩ | ⟨hfull, -⟩ := admissible_cons_cases h
  · omega
  · simp [hfull] at hzero

/-- An entry whose insignificant bits are 0 is its bit string. -/
theorem entry_eq_of_entryBitString {e e' : Entry} (he : ∀ j, j < 32 - e.sig.toNat → e.value.getLsbD j = false)
    (he' : ∀ j, j < 32 - e'.sig.toNat → e'.value.getLsbD j = false) (h : entryBitString e = entryBitString e') :
    e = e' := by
  have hsig : e.sig.toNat = e'.sig.toNat := by simpa using congrArg List.length h
  have hvalue : e.value = e'.value := by
    apply BitVec.eq_of_getMsbD_eq
    intro t ht
    by_cases hs : t < e.sig.toNat
    · have bit : (entryBitString e)[t]? = (entryBitString e')[t]? := by rw [h]
      simpa [entryBitString, hs, ← hsig] using bit
    · rw [BitVec.getMsbD_eq_getLsbD, BitVec.getMsbD_eq_getLsbD, he _ (by omega), he' _ (by omega)]
  cases e; cases e'
  exact congrArg₂ Entry.mk hvalue (BitVec.eq_of_toNat_eq hsig)

/-- Two well-formed arrays with the same bit string are equal: the first tags agree, so the strings split at the same
place. -/
theorem eq_of_bits_eq : ∀ {a a' : List Entry}, wf a = true → wf a' = true → bits a = bits a' → a = a'
  | [], [], _, _, _ => rfl
  | [], _ :: _, _, h', h => absurd h.symm (bits_cons_ne_nil (wf_cons h').1)
  | _ :: _, [], h₀, _, h => absurd h (bits_cons_ne_nil (wf_cons h₀).1)
  | e :: rest, e' :: rest', h₀, h', h => by
    obtain ⟨ha, he, hrest⟩ := wf_cons h₀
    obtain ⟨ha', he', hrest'⟩ := wf_cons h'
    have hsig : (entryBitString e).length = (entryBitString e').length := by
      rw [entryBitString_length, entryBitString_length, head_sig_eq_min ha, head_sig_eq_min ha', h]
    obtain ⟨hhead, htail⟩ := List.append_inj h hsig
    rw [entry_eq_of_entryBitString he he' hhead, eq_of_bits_eq hrest hrest' htail]

/-- Settles O9: the length is the sum of the tags, and the arrays are compared entry by entry. -/
theorem bitStringDeterminesArray : Obligations.BitStringDeterminesArray :=
  ⟨fun a h => (bits_length a).trans (bitLength_eq_sum_of_admissible h).symm, fun _ _ => eq_of_bits_eq⟩

/-! ### Responses and records (10_state.md R24, R26) -/

@[simp] theorem State.afterCommand_config (s : State) (i : Instr) (c : Command) (a : Status × Result) :
    (s.afterCommand i c a).config = s.config := rfl
@[simp] theorem State.afterCommand_host (s : State) (i : Instr) (c : Command) (a : Status × Result) :
    (s.afterCommand i c a).host = s.host := rfl
@[simp] theorem State.afterCommand_inFlight (s : State) (i : Instr) (c : Command) (a : Status × Result) :
    (s.afterCommand i c a).inFlight = none := rfl
@[simp] theorem State.afterCommand_responses (s : State) (i : Instr) (c : Command) (a : Status × Result) :
    (s.afterCommand i c a).responses = s.responses ++ [{ site := c.site, status := a.1, result := a.2 }] := rfl
@[simp] theorem State.afterCommand_sink (s : State) (i : Instr) (c : Command) (a : Status × Result) :
    (s.afterCommand i c a).sink = s.sink ++ recordsOf s.sinkPresent i c := rfl

/-- A command appends no record, or it is a `DUMP` with a sink present and appends one (43_dump.md R101). -/
theorem recordsOf_cases (present : Bool) (i : Instr) (c : Command) :
    recordsOf present i c = [] ∨ (present = true ∧ i = .dump ∧ recordsOf present i c = [render c.ib]) := by
  cases i with
  | encode pe bs => exact .inl rfl
  | decode => exact .inl rfl
  | pad pe bs => exact .inl rfl
  | dump => cases present <;> simp [recordsOf]

/-- Only `DUMP` answers without a result (30_encoding.md R55). -/
theorem answerOf_nothing_iff {cfg : Config} {i : Instr} {c : Command} {a : Status × Result}
    (h : answerOf cfg i c = .ok a) : a.2 = .nothing ↔ i = .dump := by
  have bytes {out : Except CodecError (List Byte)} (h : concluded cfg (out.map Result.bytes) = .ok a) :
      a.2 ≠ .nothing := by
    obtain ⟨e, -, rfl⟩ | ⟨ob, -, -, rfl⟩ := concluded_bytes_eq_ok.1 h <;> simp
  cases i with
  | encode pe bs => simpa using bytes (answerOf_encode.1 h).2.2
  | decode => simp [(answerOf_decode.1 h).2]
  | pad pe bs => simpa using bytes (answerOf_pad.1 h).2
  | dump => simp [(answerOf_dump.1 h).2]

/-- Settles O41: a step that runs a command appends its response and its records, and any other step appends nothing. -/
theorem responsesAndSinkOnlyGrow : Obligations.ResponsesAndSinkOnlyGrow := by
  intro s t h
  obtain ⟨c, hc⟩ | ⟨c, r, -, hr⟩ | ⟨u, hu, -, -, hresponses, hsink⟩ := step_cases s
  · obtain ⟨i, a, -, ha, rfl⟩ := step_answered hc h
    refine .inr ⟨⟨c.site, a.1, a.2⟩, by simp, ?_⟩
    obtain hnone | ⟨hpresent, rfl, hone⟩ := recordsOf_cases s.sinkPresent i c
    · exact .inl (by simp [hnone])
    · obtain ⟨-, rfl⟩ := answerOf_dump.1 ha
      exact .inr ⟨render c.ib, hpresent, rfl, rfl, by simp [hone]⟩
  · cases hr.symm.trans h
  · cases hu.symm.trans h
    exact .inl ⟨hresponses, hsink⟩

/-- Settles O44: the answer is `answerOf` of the parameters and the command, and the records are `recordsOf` of
`SINK_PRESENT` and the command. -/
theorem responseDependsOnCommandAlone : Obligations.ResponseDependsOnCommandAlone := by
  intro s s' c hc hc' hconfig t h
  obtain ⟨i, a, hd, ha, rfl⟩ := step_answered hc h
  have step' : step s' = .next (s'.loaded.afterCommand i c a) := by
    rw [step_eq_answer hc', hconfig, hd]
    simp only [ha]
  refine ⟨_, ⟨c.site, a.1, a.2⟩, step', by simp, by simp, fun hp => ?_⟩
  exact ⟨recordsOf s.sinkPresent i c, by simp, by simp [hp]⟩

/-! ### Steps without a command to answer (10_state.md R26, R27; 70_reset_and_hazards.md R150, R151) -/

theorem State.loaded_of_idle {s : State} {a : HostAction} {rest : List HostAction} (h : s.inFlight = none)
    (hh : s.host = a :: rest) : s.loaded = { s with host := rest } := by
  simp [State.loaded, h, hh, State.advance]

/-- A reset between commands finds nothing to abandon. -/
theorem step_reset {s : State} {rest : List HostAction} (h : s.inFlight = none) (hh : s.host = .reset :: rest) :
    step s = .next { s with host := rest } := by
  simp [step, fetch, h, hh, State.resetUnit, State.advance]

theorem step_setSink {s : State} {present : Bool} {rest : List HostAction} (h : s.inFlight = none)
    (hh : s.host = .setSink present :: rest) : step s = .next { s with host := rest, sinkPresent := present } := by
  simp [step, fetch, h, hh, State.attach, State.advance]

/-- A command within the contract that a reset abandons leaves nothing. -/
theorem step_issueThenReset_within {s : State} {c : Command} {rest : List HostAction} (h : s.inFlight = none)
    (hh : s.host = .issueThenReset c :: rest) (hin : c.withinContract s.config = true) :
    step s = .next { s with host := rest } := by
  rw [step_eq_abandoned (c := c) ⟨h, by simp [hh]⟩, ← State.loaded_of_idle h hh]
  cases hd : decodeCmd s.config.hasDump c.word with
  | error why => simp [Command.withinContract, hd] at hin
  | ok i =>
    obtain ⟨a, ha⟩ := (answerOf_contract hd).2 hin
    simp only [ha]

/-- An abandoned command outside the contract is refused (log entry 27). -/
theorem step_issueThenReset_outside {s : State} {c : Command} {rest : List HostAction} (h : s.inFlight = none)
    (hh : s.host = .issueThenReset c :: rest) (hout : c.withinContract s.config = false) :
    ∃ r, step s = .refused r := by
  rw [step_eq_abandoned (c := c) ⟨h, by simp [hh]⟩]
  cases hd : decodeCmd s.config.hasDump c.word with
  | error why => exact ⟨_, rfl⟩
  | ok i =>
    cases ha : answerOf s.config i c with
    | error r => exact ⟨r, by simp only [ha]⟩
    | ok a => simp [(answerOf_contract hd).1 ⟨a, ha⟩] at hout

/-- A reset that abandons a command neither adds a refusal nor takes one away. -/
theorem step_issueThenReset_refused_iff {s : State} {c : Command} {rest : List HostAction} (h : s.inFlight = none)
    (hh : s.host = .issueThenReset c :: rest) (r : Refusal) :
    step s = .refused r ↔ step { s with host := .issue c :: rest } = .refused r := by
  rw [step_eq_abandoned (c := c) ⟨h, by simp [hh]⟩,
    step_eq_answer (s := { s with host := .issue c :: rest }) (c := c) (.inr ⟨h, rfl⟩)]
  cases hd : decodeCmd s.config.hasDump c.word with
  | error why => rfl
  | ok i => cases ha : answerOf s.config i c <;> simp [ha]

/-- Settles O36: one lemma for each action of the host that leaves no command to answer. -/
theorem stepsWithoutResponse : Obligations.StepsWithoutResponse := fun s h =>
  ⟨fun hh => by simp [step, fetch, h, hh],
    fun _ _ hh => ⟨step_issueThenReset_within h hh, step_issueThenReset_refused_iff h hh⟩,
    fun _ => step_reset h, fun _ _ => step_setSink h⟩

/-- Settles O43: after reset no response is recorded. -/
theorem resetResponsesLegal : Obligations.ResetResponsesLegal := rfl

/-! ### Runs of host actions (43_dump.md R107) -/

/-- No command is in flight, the parameters are `cfg`, and the host's actions to come are `actions`. -/
def State.Idle (s : State) (cfg : Config) (actions : List HostAction) : Prop :=
  s.inFlight = none ∧ s.config = cfg ∧ s.host = actions

/-- The responses a host action brings under the parameters `cfg`, or `none` where the step is refused. -/
def HostAction.brings (cfg : Config) : HostAction → Option (List Response)
  | .issue c =>
    match decodeCmd cfg.hasDump c.word with
    | .error _ => none
    | .ok i =>
      match answerOf cfg i c with
      | .ok a => some [{ site := c.site, status := a.1, result := a.2 }]
      | .error _ => none
  | .issueThenReset c => if c.withinContract cfg then some [] else none
  | .reset => some []
  | .setSink _ => some []

/-- What a step does with the next host action: it is refused exactly when the action brings `none`, and otherwise the
responses the action brings are appended and the unit is idle again. -/
theorem step_of_idle {s : State} {cfg : Config} {a : HostAction} {rest : List HostAction}
    (h : s.Idle cfg (a :: rest)) :
    (a.brings cfg = none ∧ ∃ r, step s = .refused r) ∨
    ∃ given t, a.brings cfg = some given ∧ step s = .next t ∧ t.Idle cfg rest ∧ t.responses = s.responses ++ given := by
  obtain ⟨hflight, rfl, hhost⟩ := h
  cases a with
  | issue c =>
    have e := step_eq_answer (s := s) (c := c) (.inr ⟨hflight, by simp [hhost]⟩)
    cases hd : decodeCmd s.config.hasDump c.word with
    | error why => exact .inl ⟨by simp [HostAction.brings, hd], _, by rw [e, hd]⟩
    | ok i =>
      simp only [hd] at e
      cases ha : answerOf s.config i c with
      | error r => exact .inl ⟨by simp [HostAction.brings, hd, ha], r, by rw [e, ha]⟩
      | ok a =>
        exact .inr ⟨[⟨c.site, a.1, a.2⟩], s.loaded.afterCommand i c a, by simp [HostAction.brings, hd, ha],
          by rw [e, ha], ⟨rfl, s.loaded_config, by simp [State.loaded_of_idle hflight hhost]⟩, by simp⟩
  | issueThenReset c =>
    cases hin : c.withinContract s.config with
    | false => exact .inl ⟨by simp [HostAction.brings, hin], step_issueThenReset_outside hflight hhost hin⟩
    | true =>
      exact .inr ⟨[], _, by simp [HostAction.brings, hin], step_issueThenReset_within hflight hhost hin,
        ⟨hflight, rfl, rfl⟩, by simp⟩
  | reset => exact .inr ⟨[], _, rfl, step_reset hflight hhost, ⟨hflight, rfl, rfl⟩, by simp⟩
  | setSink present => exact .inr ⟨[], _, rfl, step_setSink hflight hhost, ⟨hflight, rfl, rfl⟩, by simp⟩

/-- Of the responses a host action brings, those of a `DUMP` carry no result and all others carry one. -/
theorem brings_filter {cfg : Config} {a : HostAction} {given : List Response} (h : a.brings cfg = some given) :
    given.filter (fun r => decide (r.result ≠ .nothing)) = if a.isDump cfg.hasDump then [] else given := by
  cases a with
  | issue c =>
    simp only [HostAction.brings] at h
    cases hd : decodeCmd cfg.hasDump c.word with
    | error why => simp [hd] at h
    | ok i =>
      cases ha : answerOf cfg i c with
      | error r => simp [hd, ha] at h
      | ok a =>
        obtain rfl : [_] = given := by simpa [hd, ha] using h
        simp [List.filter_cons, HostAction.isDump, hd, answerOf_nothing_iff ha]
  | issueThenReset c =>
    obtain ⟨-, rfl⟩ : c.withinContract cfg = true ∧ [] = given := by simpa [HostAction.brings] using h
    simp
  | reset => cases h; rfl
  | setSink present => cases h; rfl

/-- Two idle units, one of which has the `DUMP`s left out of what its host does, give the same responses with a result. -/
theorem run_without_dumps {cfg : Config} : ∀ (actions : List HostAction) {s s' t : State}, s.Idle cfg actions →
    s'.Idle cfg (actions.filter fun a => !a.isDump cfg.hasDump) → State.run actions.length s = .next t →
    ∃ (t' : State) (given : List Response),
      State.run (actions.filter fun a => !a.isDump cfg.hasDump).length s' = .next t' ∧
      t.responses = s.responses ++ given ∧
      t'.responses = s'.responses ++ given.filter fun r => decide (r.result ≠ .nothing)
  | [], s, s', t, _, _, h => by
    cases h
    exact ⟨s', [], rfl, by simp, by simp⟩
  | a :: rest, s, s', t, hs, hs', h => by
    obtain ⟨-, r, hr⟩ | ⟨now, u, hnow, hu, hidle, hresponses⟩ := step_of_idle hs
    · simp [State.run, hr] at h
    · have later : State.run rest.length u = .next t := by simpa [State.run, hu] using h
      have kept := brings_filter hnow
      cases hdump : a.isDump cfg.hasDump with
      | true =>
        rw [List.filter_cons_of_neg (by simp [hdump])] at hs' ⊢
        obtain ⟨t', given, hrun, ht, ht'⟩ := run_without_dumps rest hidle hs' later
        exact ⟨t', now ++ given, hrun, by simp [ht, hresponses], by rw [ht', List.filter_append, kept, hdump]; rfl⟩
      | false =>
        rw [List.filter_cons_of_pos (by simp [hdump])] at hs' ⊢
        obtain ⟨hnone, -⟩ | ⟨now', u', hnow', hu', hidle', hresponses'⟩ := step_of_idle hs'
        · cases hnow.symm.trans hnone
        · cases hnow.symm.trans hnow'
          obtain ⟨t', given, hrun, ht, ht'⟩ := run_without_dumps rest hidle hidle' later
          exact ⟨t', now ++ given, by simpa [State.run, hu'] using hrun, by simp [ht, hresponses],
            by rw [ht', hresponses', List.filter_append, kept, hdump, List.append_assoc]; rfl⟩

/-- Settles O46: the two runs start in the same state but for the `DUMP`s. -/
theorem droppingDumpsChangesNoOtherResponse : Obligations.DroppingDumpsChangesNoOtherResponse :=
  fun actions s _ h => run_without_dumps actions (s := { s with host := actions })
    (s' := { s with host := actions.filter fun a => !a.isDump s.config.hasDump }) ⟨h, rfl, rfl⟩ ⟨h, rfl, rfl⟩

end Sys2Proof.Machine
end

section
/-! The obligations of 20_memory.md: the byte lanes of a word, the halves of a 4-byte group, one response for each admitted
command, and the order of two commands of different call sites. -/

namespace Sys2Proof.Machine

/-! ### Words and their bytes (20_memory.md R32, R33) -/

/-- Appending zero bytes shifts the big-endian value. -/
theorem bigEndian_append_zeros (bs : List Byte) (k : Nat) :
    bigEndian (bs ++ List.replicate k 0#8) = bigEndian bs <<< (8 * k) := by
  induction k with
  | zero => simp
  | succ k ih =>
    have last : bigEndian (bs ++ List.replicate (k + 1) 0#8) = bigEndian (bs ++ List.replicate k 0#8) <<< 8 := by
      rw [List.replicate_succ', ← List.append_assoc]; simp [bigEndian, List.foldl_append]
    rw [last, ih, ← BitVec.shiftLeft_add, Nat.mul_succ]

/-- `word_of` fills up with zero bytes below the bytes it is given. -/
theorem wordOf_append_zeros {bs : List Byte} (h : bs.length ≤ 4) :
    wordOf (bs ++ List.replicate (4 - bs.length) 0#8) = wordOf bs := by
  have full : (bs ++ List.replicate (4 - bs.length) 0#8).length = 4 := by simp; omega
  rw [wordOf, full, bigEndian_append_zeros, wordOf, Nat.mul_sub]
  exact BitVec.shiftLeft_zero _

/-- `word_of` of the four bytes of a word is the word. -/
theorem wordOf_bytes4 (v : Word) : wordOf (bytes4 v) = v := by
  have h : bigEndian (bytes4 v) = v := (bigEndian_bytes4_drop v (n := 4) (by decide) (by decide)).trans (by simp)
  rw [wordOf, h, bytes4_length]
  exact BitVec.shiftLeft_zero _

/-- The four bytes of `word_of` of four bytes are those bytes. -/
theorem bytes4_wordOf_of_length_eq_four {bs : List Byte} (h : bs.length = 4) : bytes4 (wordOf bs) = bs := by
  obtain ⟨a, b, c, d, rfl⟩ := List.length_eq_four.1 h
  have word : wordOf [a, b, c, d] = a ++ b ++ c ++ d := (BitVec.shiftLeft_zero _).trans (bigEndian_four a b c d)
  rw [word, bytes4_append]

/-- The bytes of `word_of` are the bytes given, on top, and zeros below. -/
theorem bytes4_wordOf {bs : List Byte} (h : bs.length ≤ 4) :
    bytes4 (wordOf bs) = bs ++ List.replicate (4 - bs.length) 0#8 := by
  rw [← wordOf_append_zeros h]
  exact bytes4_wordOf_of_length_eq_four (by simp; omega)

theorem bytes4_getElem? (v : Word) {j : Nat} (hj : j < 4) : (bytes4 v)[j]? = some (byteOfWord v j) := by
  obtain rfl | rfl | rfl | rfl : j = 0 ∨ j = 1 ∨ j = 2 ∨ j = 3 := by omega
  all_goals rfl

/-- Settles O10: fewer than four bytes are four bytes with zeros below, and four bytes are the lanes of a word. -/
theorem wordBytesRoundTrip : Obligations.WordBytesRoundTrip := by
  refine ⟨fun v j hj => ?_, wordOf_bytes4, fun _ _ _ _ => bytes4_wordOf_of_length_eq_four rfl,
    fun bs _ h => bytes4_wordOf h, fun ib addr r _ _ h => ?_⟩
  · rw [bytes4_getElem? v hj, byteOfWord, BitVec.setWidth_ushiftRight_eq_extractLsb]
  · have len : ((ib.drop addr).take r).length = r := by simp; omega
    rw [wordOf, len, memRead]

/-! ### The halves of a 4-byte group (20_memory.md R31) -/

/-- A 4-byte group is its first two bytes over its last two. -/
theorem memRead_four_eq_halves {ib : List Byte} {i : Nat} (h : i + 4 ≤ ib.length) :
    memRead ib i 4 = (memRead ib i 2).setWidth 16 ++ (memRead ib (i + 2) 2).setWidth 16 := by
  obtain ⟨a, b, c, d, window⟩ : ∃ a b c d, (ib.drop i).take 4 = [a, b, c, d] :=
    List.length_eq_four.1 (by simp; omega)
  have upper : (ib.drop i).take 2 = [a, b] := by
    simpa [List.take_take] using congrArg (List.take 2) window
  have lower : (ib.drop (i + 2)).take 2 = [c, d] := by
    simpa [List.drop_take] using congrArg (List.drop 2) window
  have join : a ++ b ++ c ++ d = (a ++ b) ++ (c ++ d) := BitVec.append_assoc
  simp only [memRead, window, upper, lower, bigEndian_four, bigEndian_two, join]
  simp

/-- Settles O11: the group is cut into its halves. -/
theorem halfwordInsideWord : Obligations.HalfwordInsideWord := by
  intro ib i h
  rw [memRead_four_eq_halves h]
  constructor
  · intro h0
    rw [h0, BitVec.extractLsb'_append_eq_left, Nat.sub_zero]
  · intro h2
    have low : i - i % 4 + 2 = i := by omega
    rw [BitVec.extractLsb'_append_eq_right, low]

/-! ### One response for each admitted command (20_memory.md R47) -/

@[simp] theorem State.afterCommand_sinkPresent (s : State) (i : Instr) (c : Command) (a : Status × Result) :
    (s.afterCommand i c a).sinkPresent = s.sinkPresent := rfl

theorem State.loaded_host (s : State) :
    s.loaded.host = if s.inFlight = none then s.host.tail else s.host := by
  unfold State.loaded; split <;> rfl

/-- A step that runs a command answers exactly when the word is valid and the command is answered. -/
theorem step_eq_next_iff {s t : State} {c : Command} (hc : s.nextCommand c) :
    step s = .next t ↔
      ∃ i a, decodeCmd s.config.hasDump c.word = .ok i ∧ answerOf s.config i c = .ok a ∧
        t = s.loaded.afterCommand i c a := by
  refine ⟨step_answered hc, ?_⟩
  rintro ⟨i, a, hd, ha, rfl⟩
  rw [step_eq_answer hc, hd]
  simp only [ha]

/-- A command within the contract has a valid word and is answered. -/
theorem answerOf_of_withinContract {cfg : Config} {c : Command} (h : c.withinContract cfg = true) :
    ∃ i a, decodeCmd cfg.hasDump c.word = .ok i ∧ answerOf cfg i c = .ok a := by
  cases hd : decodeCmd cfg.hasDump c.word with
  | error why => simp [Command.withinContract, hd] at h
  | ok i =>
    obtain ⟨a, ha⟩ := (answerOf_contract hd).2 h
    exact ⟨i, a, rfl, ha⟩

/-- Settles O38: within the contract the command is answered, and the step takes no more than its host action. -/
theorem admittedCommandGetsOneResponse : Obligations.AdmittedCommandGetsOneResponse := by
  intro s c hc hin
  obtain ⟨i, a, hd, ha⟩ := answerOf_of_withinContract hin
  refine ⟨_, ⟨c.site, a.1, a.2⟩, (step_eq_next_iff hc).2 ⟨i, a, hd, ha, rfl⟩, rfl, ?_, rfl, ?_, ?_, s.loaded_host⟩
  all_goals simp

/-- Settles O39: a step that runs a command answers it or is refused, and no other step faults either. -/
theorem stepNeverFaults : Obligations.StepNeverFaults := by
  intro s f h
  obtain ⟨c, hc⟩ | ⟨c, r, -, hr⟩ | ⟨t, ht, -⟩ := step_cases s
  · rw [step_eq_answer hc] at h
    cases hd : decodeCmd s.config.hasDump c.word with
    | error why => simp [hd] at h
    | ok i => cases ha : answerOf s.config i c <;> simp [hd, ha] at h
  · cases hr.symm.trans h
  · cases ht.symm.trans h

/-! ### The order of two commands (20_memory.md R44) -/

/-- One step more: the first step answers, and the run goes on from its state. -/
theorem run_succ_eq_next_iff {k : Nat} {s t : State} :
    State.run (k + 1) s = .next t ↔ ∃ u, step s = .next u ∧ State.run k u = .next t := by
  cases h : step s <;> simp [State.run, h]

/-- `step_eq_next_iff` for a command that an idle unit takes from its host. -/
theorem step_issue_eq_next_iff {s t : State} {c : Command} {rest : List HostAction} (h : s.inFlight = none)
    (hh : s.host = .issue c :: rest) :
    step s = .next t ↔
      ∃ i a, decodeCmd s.config.hasDump c.word = .ok i ∧ answerOf s.config i c = .ok a ∧
        t = (s.advance rest).afterCommand i c a := by
  rw [step_eq_next_iff (c := c) (.inr ⟨h, by simp [hh]⟩), State.loaded_of_idle h hh]
  rfl

/-- What two commands, issued one after the other, come to: each is answered as `answerOf` says, whatever the other is. -/
theorem run_two_issues_iff {s t : State} {c d : Command} {rest : List HostAction} (h : s.inFlight = none)
    (hh : s.host = .issue c :: .issue d :: rest) :
    State.run 2 s = .next t ↔
      ∃ i a j b, decodeCmd s.config.hasDump c.word = .ok i ∧ answerOf s.config i c = .ok a ∧
        decodeCmd s.config.hasDump d.word = .ok j ∧ answerOf s.config j d = .ok b ∧
        t = (((s.advance (.issue d :: rest)).afterCommand i c a).advance rest).afterCommand j d b := by
  rw [run_succ_eq_next_iff]
  constructor
  · rintro ⟨u, hu, hrun⟩
    obtain ⟨i, a, hi, ha, rfl⟩ := (step_issue_eq_next_iff h hh).1 hu
    obtain ⟨v, hv, hvt⟩ := run_succ_eq_next_iff.1 hrun
    obtain ⟨j, b, hj, hb, rfl⟩ := (step_issue_eq_next_iff rfl rfl).1 hv
    cases hvt
    exact ⟨i, a, j, b, hi, ha, hj, hb, rfl⟩
  · rintro ⟨i, a, j, b, hi, ha, hj, hb, rfl⟩
    refine ⟨_, (step_issue_eq_next_iff h hh).2 ⟨i, a, hi, ha, rfl⟩, run_succ_eq_next_iff.2 ⟨_, ?_, rfl⟩⟩
    exact (step_issue_eq_next_iff rfl rfl).2 ⟨j, b, hj, hb, rfl⟩

/-- The records of a command: the text of its operand if it is a `DUMP` and the sink is present (43_dump.md R101). -/
theorem recordsOf_eq_ite (present : Bool) (i : Instr) (c : Command) :
    recordsOf present i c = if i = .dump ∧ present = true then [render c.ib] else [] := by
  cases i <;> simp [recordsOf]

/-- Settles O45: both orders answer the two commands from the same parameters and the same `SINK_PRESENT`. -/
theorem interleavingChangesNoResponse : Obligations.InterleavingChangesNoResponse := by
  intro s t c d rest h hrun
  have order (x y : Command) (u : State) :=
    run_two_issues_iff (s := { s with host := .issue x :: .issue y :: rest }) (t := u) h rfl
  obtain ⟨i, a, j, b, hi, ha, hj, hb, rfl⟩ := (order c d t).1 hrun
  refine ⟨_, ⟨c.site, a.1, a.2⟩, ⟨d.site, b.1, b.2⟩, recordsOf s.sinkPresent i c, recordsOf s.sinkPresent j d,
    (order d c _).2 ⟨j, b, i, a, hj, hb, hi, ha, rfl⟩, rfl, rfl, ?_⟩
  simp [hi, hj, recordsOf_eq_ite]

end Sys2Proof.Machine
end

section
/-! The obligations of 30_encoding.md: the command word and its decoder, the boundary form of an entry, the status codes,
and which command ends with which status and result. -/

namespace Sys2Proof

/-! ### The fields of a packed word (30_encoding.md R50 to R53) -/

@[simp] theorem opField_packWord (pe : Option Bool) (bs : Option Int) (op : BitVec 2) :
    opField (packWord pe bs op) = op :=
  (Laws.Layout.of_packWord pe bs op).1

@[simp] theorem rsvField_packWord (pe : Option Bool) (bs : Option Int) (op : BitVec 2) :
    rsvField (packWord pe bs op) = 0#3 :=
  (Laws.Layout.of_packWord pe bs op).2

@[simp] theorem pevField_packWord (pe : Option Bool) (bs : Option Int) (op : BitVec 2) :
    pevField (packWord pe bs op) = pe.isSome := by
  obtain ⟨-, pev, -⟩ := fields_of_word _ _ _ _ _ _ (packWord pe bs op) rfl
  exact pev

@[simp] theorem peField_packWord (pe : Option Bool) (bs : Option Int) (op : BitVec 2) :
    peField (packWord pe bs op) = pe.getD false := by
  obtain ⟨-, -, pe', -⟩ := fields_of_word _ _ _ _ _ _ (packWord pe bs op) rfl
  exact pe'

@[simp] theorem bsvField_packWord (pe : Option Bool) (bs : Option Int) (op : BitVec 2) :
    bsvField (packWord pe bs op) = bs.isSome := by
  obtain ⟨-, -, -, bsv, -⟩ := fields_of_word _ _ _ _ _ _ (packWord pe bs op) rfl
  exact bsv

@[simp] theorem bsField_packWord (pe : Option Bool) (bs : Option Int) (op : BitVec 2) :
    bsField (packWord pe bs op) = BitVec.ofInt 32 (bs.getD 0) := by
  obtain ⟨-, -, -, -, -, bs'⟩ := fields_of_word _ _ _ _ _ _ (packWord pe bs op) rfl
  exact bs'

/-- A word without parameters has every bit above `OP` clear (30_encoding.md R59 V4). -/
@[simp] theorem parameterBits_packWord_none (op : BitVec 2) : parameterBits (packWord none none op) = 0#38 := by
  simp [parameterBits_eq_zero]

@[simp] theorem suppliedPe_packWord (pe : Option Bool) (bs : Option Int) (op : BitVec 2) :
    suppliedPe (packWord pe bs op) = pe := by
  cases pe <;> simp [suppliedPe]

theorem suppliedBs_packWord (pe : Option Bool) {bs : Option Int} (op : BitVec 2) (h : blockSizeFits bs = true) :
    suppliedBs (packWord pe bs op) = bs := by
  cases bs with
  | none => simp [suppliedBs]
  | some b => simpa [suppliedBs] using toInt_of_fits h

/-! ### Valid words (30_encoding.md R59) -/

/-- V1 to V5 of 30_encoding.md R59, said of the fields: each test of the decoder must fail, and its two tests for a set
parameter bit make up V4. -/
theorem invalidity_eq_none_iff (hasDump : Bool) (c : CmdWord) :
    invalidity hasDump c = none ↔
      rsvField c = 0#3 ∧ (pevField c = false → peField c = false) ∧ (bsvField c = false → bsField c = 0#32) ∧
        (opField c = 1#2 ∨ opField c = 3#2 → parameterBits c = 0#38) ∧ (opField c = 3#2 → hasDump = true) := by
  simp [invalidity, ite_eq_iff, or_imp, and_assoc]

theorem decodeCmd_isOk_iff (hasDump : Bool) (c : CmdWord) :
    (∃ i, decodeCmd hasDump c = .ok i) ↔ invalidity hasDump c = none := by
  simp [decodeCmd_eq_ok]

/-- Settles O2: the decoder's tests, one by one, are V1 to V5. -/
theorem wordValidExactlyByV1ToV5 : Obligations.WordValidExactlyByV1ToV5 := fun hasDump c =>
  (decodeCmd_isOk_iff hasDump c).trans (invalidity_eq_none_iff hasDump c)

/-! ### Decoding an encoded command (30_encoding.md R61) -/

/-- The word of a command is valid, `DUMP` needing `HAS_DUMP`. -/
theorem invalidity_encodeCmd {hasDump : Bool} {i : Instr} (h : i = .dump → hasDump = true) :
    invalidity hasDump (encodeCmd i) = none := by
  rw [invalidity_eq_none_iff]
  cases i with
  | encode pe bs => simp +contextual [encodeCmd]
  | decode => simp [encodeCmd]
  | pad pe bs => simp +contextual [encodeCmd]
  | dump => simp [encodeCmd, h]

/-- The word of a well-formed command stands for that command. -/
theorem commandOf_encodeCmd {i : Instr} (h : WellFormed i) : commandOf (encodeCmd i) = i := by
  cases i with
  | encode pe bs => simp [commandOf, encodeCmd, suppliedBs_packWord pe _ h]
  | decode => simp [commandOf, encodeCmd]
  | pad pe bs => simp [commandOf, encodeCmd, suppliedBs_packWord pe _ h]
  | dump => simp [commandOf, encodeCmd]

/-! ### Encoding a decoded word (30_encoding.md R61) -/

/-- A word that meets V1 to V3 is packed from the parameters it supplies. -/
theorem packWord_supplied {c : CmdWord} (rsv : rsvField c = 0#3) (pe : pevField c = false → peField c = false)
    (bs : bsvField c = false → bsField c = 0#32) : packWord (suppliedPe c) (suppliedBs c) (opField c) = c := by
  have hpe : (suppliedPe c).isSome = pevField c ∧ (suppliedPe c).getD false = peField c := by
    cases h : pevField c <;> simp [suppliedPe, h, pe]
  have hbs : (suppliedBs c).isSome = bsvField c ∧ BitVec.ofInt 32 ((suppliedBs c).getD 0) = bsField c := by
    cases h : bsvField c <;> simp [suppliedBs, h, bs]
  rw [packWord, hpe.1, hpe.2, hbs.1, hbs.2, ← rsv]
  exact word_of_its_fields c

/-- A word with no parameter bit set is packed from its operation alone. -/
theorem packWord_none_of_parameterBits {c : CmdWord} (h : parameterBits c = 0#38) :
    packWord none none (opField c) = c := by
  obtain ⟨hbs, hrsv, hbsv, hpe, hpev⟩ := (parameterBits_eq_zero c).1 h
  simpa [suppliedPe, suppliedBs, hpev, hbsv] using packWord_supplied hrsv (fun _ => hpe) (fun _ => hbs)

/-- What a word stands for, by its operation. -/
theorem commandOf_cases (c : CmdWord) :
    (opField c = 0#2 ∧ commandOf c = .encode (suppliedPe c) (suppliedBs c)) ∨
    (opField c = 1#2 ∧ commandOf c = .decode) ∨
    (opField c = 2#2 ∧ commandOf c = .pad (suppliedPe c) (suppliedBs c)) ∨
    (opField c = 3#2 ∧ commandOf c = .dump) := by
  have op : ∀ op : BitVec 2, op = 0#2 ∨ op = 1#2 ∨ op = 2#2 ∨ op = 3#2 := by decide
  obtain h | h | h | h := op (opField c) <;> simp [commandOf, h]

/-- A valid word is the word of the command it stands for. -/
theorem encodeCmd_commandOf {hasDump : Bool} {c : CmdWord} (h : invalidity hasDump c = none) :
    encodeCmd (commandOf c) = c := by
  obtain ⟨v1, v2, v3, v4, -⟩ := (invalidity_eq_none_iff hasDump c).1 h
  obtain ⟨op, e⟩ | ⟨op, e⟩ | ⟨op, e⟩ | ⟨op, e⟩ := commandOf_cases c <;> rw [e, encodeCmd, ← op]
  · exact packWord_supplied v1 v2 v3
  · exact packWord_none_of_parameterBits (v4 (.inl op))
  · exact packWord_supplied v1 v2 v3
  · exact packWord_none_of_parameterBits (v4 (.inr op))

/-- What `BS` holds fits `BS` (30_encoding.md R53). -/
theorem blockSizeFits_suppliedBs (c : CmdWord) : blockSizeFits (suppliedBs c) = true := by
  cases h : bsvField c with
  | false => simp [suppliedBs, h, blockSizeFits]
  | true =>
    have low := BitVec.le_toInt (bsField c)
    have high := BitVec.toInt_lt (x := bsField c)
    simpa [suppliedBs, h, blockSizeFits] using And.intro low high

theorem wellFormed_commandOf (c : CmdWord) : WellFormed (commandOf c) := by
  obtain ⟨-, e⟩ | ⟨-, e⟩ | ⟨-, e⟩ | ⟨-, e⟩ := commandOf_cases c <;> rw [e]
  · exact blockSizeFits_suppliedBs c
  · rfl
  · exact blockSizeFits_suppliedBs c
  · rfl

/-- Settles O1: both ways, a word is its fields, and a block size that fits is read back from its field. -/
theorem commandWordRoundTrip : Obligations.CommandWordRoundTrip := by
  refine ⟨fun hasDump i hwf hdump => ?_, fun hasDump c i h => ?_⟩
  · exact (decodeCmd_eq_ok _ _ _).2 ⟨invalidity_encodeCmd hdump, commandOf_encodeCmd hwf⟩
  · obtain ⟨hvalid, rfl⟩ := (decodeCmd_eq_ok _ _ _).1 h
    exact ⟨encodeCmd_commandOf hvalid, wellFormed_commandOf c⟩

/-! ### Where the parameters stand (30_encoding.md R50 to R53) -/

/-- The parameter fields of a packed word, bit by bit. -/
theorem packWord_layout (pe : Option Bool) {bs : Option Int} (op : BitVec 2) (h : blockSizeFits bs = true) :
    (packWord pe bs op).extractLsb' 8 32 = BitVec.ofInt 32 (bs.getD 0) ∧
      ((packWord pe bs op).extractLsb' 8 32).toInt = bs.getD 0 ∧ (packWord pe bs op).extractLsb' 5 3 = 0#3 ∧
      (packWord pe bs op).getLsbD 4 = bs.isSome ∧ (packWord pe bs op).getLsbD 3 = pe.getD false ∧
      (packWord pe bs op).getLsbD 2 = pe.isSome := by
  have hbs := bsField_packWord pe bs op
  exact ⟨hbs, (congrArg BitVec.toInt hbs).trans (toInt_of_fits h), rsvField_packWord pe bs op,
    bsvField_packWord pe bs op, peField_packWord pe bs op, pevField_packWord pe bs op⟩

/-- Settles O3: `ENCODE` and `PAD` pack their parameters alike. -/
theorem commandWordLayout : Obligations.CommandWordLayout := by
  intro pe bs h
  refine ⟨?_, opField_packWord pe bs 0#2, opField_packWord pe bs 2#2⟩
  rintro c (rfl | rfl)
  · exact packWord_layout pe 0#2 h
  · exact packWord_layout pe 2#2 h

/-- Settles O4: the decoder is run on each word. -/
theorem specWordsDecode : Obligations.SpecWordsDecode := by
  refine ⟨?_, ?_, ?_, ?_, ?_, ?_, ?_⟩ <;> decide

/-! ### Entries on the boundary (30_encoding.md R56) -/

/-- What 40 bits stand for: their two fields, if the tag is legal. -/
theorem entryOfBits_eq_some_iff {w : BitVec 40} {e : Entry} :
    entryOfBits w = some e ↔ legalSig e.sig = true ∧ e = { value := w.extractLsb' 0 32, sig := w.extractLsb' 32 8 } := by
  simp only [entryOfBits, Option.ite_none_right_eq_some, Option.some.injEq, eq_comm (a := e)]
  constructor <;> rintro ⟨h, rfl⟩ <;> exact ⟨h, rfl⟩

@[simp] theorem entryBits_value (e : Entry) : (entryBits e).extractLsb' 0 32 = e.value :=
  BitVec.extractLsb'_append_eq_right

@[simp] theorem entryBits_sig (e : Entry) : (entryBits e).extractLsb' 32 8 = e.sig :=
  BitVec.extractLsb'_append_eq_left

/-- 40 bits are their two fields. -/
theorem entryBits_of_fields (w : BitVec 40) :
    entryBits { value := w.extractLsb' 0 32, sig := w.extractLsb' 32 8 } = w :=
  (BitVec.extractLsb'_append_extractLsb'_eq_extractLsb' rfl).trans BitVec.extractLsb'_eq_self

/-- Settles O5: the boundary form is the two fields side by side. -/
theorem entryBoundaryForm : Obligations.EntryBoundaryForm := by
  refine ⟨fun w => ?_, fun e h1 h32 => ?_, fun w e h => ?_⟩
  · simp only [entryOfBits, Machine.legalSig_iff]
  · exact entryOfBits_eq_some_iff.2 ⟨(Machine.legalSig_iff _).2 ⟨h1, h32⟩, by simp⟩
  · obtain ⟨-, rfl⟩ := entryOfBits_eq_some_iff.1 h
    exact entryBits_of_fields w

end Sys2Proof

namespace Sys2Proof.Machine

/-! ### Status codes (30_encoding.md R58) -/

theorem Status.code_ne_three (st : Status) : st.code ≠ 0b11#2 := by
  obtain _ | ⟨_ | _⟩ := st <;> decide

@[simp] theorem statusOfCode_code (st : Status) : statusOfCode st.code = some st := by
  obtain _ | ⟨_ | _⟩ := st <;> rfl

theorem Status.code_of_statusOfCode {w : BitVec 2} {st : Status} (h : statusOfCode w = some st) : st.code = w := by
  unfold statusOfCode at h
  split_ifs at h with h0 h1 h2 <;> cases h
  · exact h0.symm
  · exact h1.symm
  · exact h2.symm

/-- Settles O47: a status is looked up by its code, and `11` is left over. -/
theorem statusCodes : Obligations.StatusCodes :=
  ⟨rfl, rfl, rfl, Status.code_ne_three, statusOfCode_code, rfl, fun _ _ => Status.code_of_statusOfCode⟩

/-! ### Which command ends how (30_encoding.md R55, 60_exceptions.md R133) -/

/-- The one error of the block size (42_pad.md R91). -/
theorem resolveBs_error {policy : ZeroBsPolicy} {bs : Option Int} {e : CodecError}
    (h : resolveBs policy bs = .error e) : e = .invalidArgument := by
  cases bs with
  | none => cases h
  | some b =>
    simp only [resolveBs] at h
    split_ifs at h with negative zero
    · cases h; rfl
    · cases policy <;> cases h; rfl

/-- The one error of `PAD` (60_exceptions.md R133). -/
theorem padBytes_error {cfg : Config} {pe : Option Bool} {bs : Option Int} {ib : List Byte} {e : CodecError}
    (h : padBytes cfg pe bs ib = .error e) : e = .invalidArgument := by
  cases hbs : resolveBs cfg.zeroBsPolicy bs with
  | error e' =>
    obtain rfl : e' = e := by simpa [padBytes_of_unresolved ib hbs] using h
    exact resolveBs_error hbs
  | ok m => cases (padBytes_of_resolved ib hbs).symm.trans h

/-- A computation that gives a byte buffer is answered with one, also when it fails. -/
theorem concluded_result_bytes {cfg : Config} {out : Except CodecError (List Byte)} {a : Status × Result}
    (h : concluded cfg (out.map Result.bytes) = .ok a) : ∃ ob, a.2 = .bytes ob := by
  obtain ⟨e, -, rfl⟩ | ⟨ob, -, -, rfl⟩ := concluded_bytes_eq_ok.1 h
  · exact ⟨[], rfl⟩
  · exact ⟨ob, rfl⟩

/-- The status of a computation that gives a byte buffer is its error's, if it has one. -/
theorem concluded_status_error {cfg : Config} {out : Except CodecError (List Byte)} {a : Status × Result} {e : CodecError}
    (h : concluded cfg (out.map Result.bytes) = .ok a) (ha : a.1 = .error e) : out = .error e := by
  obtain ⟨e', hout, rfl⟩ | ⟨ob, -, -, rfl⟩ := concluded_bytes_eq_ok.1 h
  · cases ha; exact hout
  · cases ha

/-- `PAD` never answers `InvalidLength` (60_exceptions.md R131). -/
theorem answerOf_pad_status {cfg : Config} {pe : Option Bool} {bs : Option Int} {c : Command} {a : Status × Result}
    (h : answerOf cfg (.pad pe bs) c = .ok a) : a.1 ≠ .error .invalidLength := fun ha =>
  nomatch padBytes_error (concluded_status_error (answerOf_pad.1 h).2 ha)

/-- A meaning that answers had a command in flight, and answers it as `answerOf` says. -/
theorem exec_eq_next_iff {i : Instr} {s t : State} :
    exec i s = .next t ↔
      ∃ c a, s.inFlight = some c ∧ answerOf s.config i c = .ok a ∧ t = s.afterCommand i c a := by
  cases hc : s.inFlight with
  | none => simp [exec_idle hc]
  | some c =>
    rw [exec_eq_answer hc]
    cases ha : answerOf s.config i c with
    | error r => simp [ha]
    | ok a => simp [ha, eq_comm, -Prod.exists]

/-- Settles O32: the one response is what `answerOf` gives, command by command. -/
theorem statusByCommand : Obligations.StatusByCommand := by
  intro i s t h
  obtain ⟨c, a, hc, ha, rfl⟩ := exec_eq_next_iff.1 h
  refine ⟨c, ⟨c.site, a.1, a.2⟩, hc, rfl, rfl, ?_⟩
  cases i with
  | encode pe bs =>
    obtain ⟨-, -, hconcluded⟩ := answerOf_encode.1 ha
    exact concluded_result_bytes hconcluded
  | decode =>
    obtain ⟨-, rfl⟩ := answerOf_decode.1 ha
    exact ⟨rfl, _, rfl⟩
  | pad pe bs =>
    obtain ⟨-, hconcluded⟩ := answerOf_pad.1 ha
    exact ⟨answerOf_pad_status ha, concluded_result_bytes hconcluded⟩
  | dump =>
    obtain ⟨-, rfl⟩ := answerOf_dump.1 ha
    exact ⟨rfl, rfl⟩

end Sys2Proof.Machine
end

section
/-! The obligations of 40_encode.md: the bytes `ENCODE` answers, when it answers `InvalidLength`, what its response does not
depend on, and its laws with `PAD` and `DECODE` (45_laws.md R119, R120). -/

namespace Sys2Proof.Machine

/-! ### The bits of a byte buffer (41_decode.md R84) -/

@[simp] theorem bufferBits_nil : bufferBits [] = [] := rfl

@[simp] theorem bufferBits_append (b b' : List Byte) : bufferBits (b ++ b') = bufferBits b ++ bufferBits b' :=
  List.flatMap_append

@[simp] theorem bufferBits_length (b : List Byte) : (bufferBits b).length = 8 * b.length := by
  simp [bufferBits, List.length_flatMap, Nat.mul_comm]

theorem bufferBits_singleton (x : Byte) : bufferBits [x] = (List.range 8).map x.getMsbD := rfl

/-- A zero byte is 8 zero bits. -/
theorem bufferBits_zeros (k : Nat) : bufferBits (List.replicate k 0#8) = List.replicate (8 * k) false := by
  induction k with
  | zero => rfl
  | succ k ih =>
    have zeroByte : bufferBits [0#8] = List.replicate 8 false := by decide
    rw [List.replicate_succ', bufferBits_append, ih, zeroByte, List.replicate_append_replicate, Nat.mul_succ]

theorem bufferBits_singleton_inj {x y : Byte} (h : bufferBits [x] = bufferBits [y]) : x = y :=
  BitVec.eq_of_getMsbD_eq fun t ht => by
    rw [bufferBits_singleton, bufferBits_singleton] at h
    exact List.map_inj_left.1 h t (List.mem_range.2 ht)

/-- A byte buffer is determined by its bits. -/
theorem bufferBits_inj : ∀ {b b' : List Byte}, bufferBits b = bufferBits b' → b = b'
  | [], b', h => by
    have : b'.length = 0 := by simpa using (congrArg List.length h).symm
    exact (List.length_eq_zero_iff.1 this).symm
  | x :: rest, [], h => by simpa using congrArg List.length h
  | x :: rest, y :: rest', h => by
    obtain ⟨hhead, htail⟩ :=
      List.append_inj (h : bufferBits [x] ++ bufferBits rest = bufferBits [y] ++ bufferBits rest') (by simp)
    rw [bufferBits_singleton_inj hhead, bufferBits_inj htail]

/-! ### The bytes that `ENCODE` keeps are the significant bits (40_encode.md R71, R74) -/

/-- Byte `j` of a word holds bits `8j .. 8j + 7` of the word, counted from the most significant one. -/
theorem byteOfWord_getMsbD (v : Word) {j t : Nat} (hj : j < 4) (ht : t < 8) :
    (byteOfWord v j).getMsbD t = v.getMsbD (8 * j + t) := by
  simp only [byteOfWord, BitVec.getMsbD_eq_getLsbD, BitVec.getLsbD_extractLsb', ht, decide_true, Bool.true_and,
    show 8 * j + t < 32 by omega, show 8 - 1 - t < 8 by omega]
  exact congrArg v.getLsbD (by omega)

/-- The first `q` bytes of a word hold its first `8q` bits. -/
theorem bufferBits_take_bytes4 (v : Word) : ∀ {q : Nat}, q ≤ 4 →
    bufferBits ((bytes4 v).take q) = (List.range (8 * q)).map v.getMsbD
  | 0, _ => rfl
  | q + 1, h => by
    have byte : bufferBits [byteOfWord v q] = (List.range 8).map fun t => v.getMsbD (8 * q + t) :=
      List.map_congr_left fun t ht => byteOfWord_getMsbD v h (List.mem_range.1 ht)
    rw [List.take_add_one, bytes4_getElem? v h, Option.toList_some, bufferBits_append,
      bufferBits_take_bytes4 v (Nat.le_of_succ_le h), byte, Nat.mul_succ, List.range_add, List.map_append, List.map_map]
    rfl

/-- The significant bits of an entry with a whole number of bytes are those of its first bytes. -/
theorem bufferBits_take_entry {e : Entry} (h8 : e.sig.toNat % 8 = 0) (h32 : e.sig.toNat ≤ 32) :
    bufferBits ((bytes4 e.value).take (e.sig.toNat / 8)) = entryBitString e := by
  rw [bufferBits_take_bytes4 e.value (by omega), Nat.mul_div_cancel' (Nat.dvd_of_mod_eq_zero h8)]
  rfl

/-- What `ENCODE` keeps of an array with a whole number of bytes is its bit string. -/
theorem bufferBits_truncated : ∀ {a : List Entry}, admissible a = true → bitLength a % 8 = 0 →
    bufferBits (truncated a) = bits a
  | [], _, _ => rfl
  | [e], ha, h8 => by
    obtain ⟨-, hle⟩ := (legalSig_iff _).1 (by simpa using ha)
    simpa using bufferBits_take_entry (by simpa using h8) hle
  | e :: e' :: rest, ha, h8 => by
    obtain ⟨hfull, hrest⟩ : e.sig = 32#8 ∧ admissible (e' :: rest) = true := by simpa using ha
    rw [bitLength_cons_cons] at h8
    have word : bufferBits (bytes4 e.value) = entryBitString e := by
      simpa [hfull, bytes4] using bufferBits_take_entry (e := e) (by simp [hfull]) (by simp [hfull])
    rw [truncated_cons_cons, bufferBits_append, word, bufferBits_truncated hrest (by omega), bits_cons e]

/-! ### The bit length and the bytes kept (40_encode.md R72, R74) -/

theorem bitLength_of_getLast? {a : List Entry} {last : Entry} (h : a.getLast? = some last) :
    bitLength a = 32 * (a.length - 1) + last.sig.toNat := by
  simp [bitLength, h]

/-- The bit length is a multiple of 8 when the last tag is. -/
theorem bitLength_mod_eight {a : List Entry} {last : Entry} (h : a.getLast? = some last) :
    bitLength a % 8 = last.sig.toNat % 8 := by
  rw [bitLength_of_getLast? h]; omega

/-- The last tag of an admissible array is a legal one. -/
theorem last_sig_legal {a : List Entry} {last : Entry} (ha : admissible a = true) (h : a.getLast? = some last) :
    1 ≤ last.sig.toNat ∧ last.sig.toNat ≤ 32 := by
  obtain ⟨-, hlast⟩ : fullButLast a = true ∧ lastTagLegal a = true := by simpa [admissible] using ha
  exact (legalSig_iff _).1 (by simpa [lastTagLegal, h] using hlast)

/-- An admissible array has at most 32 bits for each entry, and more than 32 for each but the last. -/
theorem bitLength_bounds {a : List Entry} (ha : admissible a = true) :
    bitLength a ≤ 32 * a.length ∧ (a ≠ [] → 32 * (a.length - 1) < bitLength a) := by
  cases h : a.getLast? with
  | none => simp [List.getLast?_eq_none_iff.1 h]
  | some last =>
    obtain ⟨hpos, hle⟩ := last_sig_legal ha h
    have nonempty : 0 < a.length := List.length_pos_of_mem (List.mem_of_getLast? h)
    rw [bitLength_of_getLast? h]
    omega

theorem truncated_length {a : List Entry} (ha : admissible a = true) : (truncated a).length = bitLength a / 8 := by
  obtain ⟨hle, -⟩ := bitLength_bounds ha
  rw [truncated, List.length_take, materialize_length]
  omega

/-- An array with a whole number of bytes has a byte for each entry at least. -/
theorem length_le_bitLength_div_eight {a : List Entry} (ha : admissible a = true) (h8 : bitLength a % 8 = 0) :
    a.length ≤ bitLength a / 8 := by
  cases a with
  | nil => simp
  | cons e rest =>
    obtain ⟨-, hlt⟩ := bitLength_bounds ha
    have := hlt (by simp)
    simp only [List.length_cons] at *
    omega

/-! ### The three ways of `ENCODE` (40_encode.md R77) -/

/-- What `ENCODE` of an admissible operand comes to: the empty buffer, `InvalidLength`, or the padding pass. -/
theorem encodeBytes_cases (cfg : Config) (pe : Option Bool) (bs : Option Int) (iw : List Entry) :
    (iw = [] ∧ encodeBytes cfg pe bs iw = .ok []) ∨
    (iw ≠ [] ∧ bitLength iw % 8 ≠ 0 ∧ encodeBytes cfg pe bs iw = .error .invalidLength) ∨
    (iw ≠ [] ∧ bitLength iw % 8 = 0 ∧ encodeBytes cfg pe bs iw = padBytes cfg pe bs (truncated iw)) := by
  by_cases h : iw = []
  · exact .inl ⟨h, by simp [encodeBytes, h]⟩
  · by_cases h8 : bitLength iw % 8 = 0
    · exact .inr (.inr ⟨h, h8, by simp [encodeBytes, h, h8]⟩)
    · exact .inr (.inl ⟨h, h8, by simp [encodeBytes, h, h8]⟩)

theorem encodeBytes_eq_invalidLength_iff {cfg : Config} {pe : Option Bool} {bs : Option Int} {iw : List Entry} :
    encodeBytes cfg pe bs iw = .error .invalidLength ↔ iw ≠ [] ∧ bitLength iw % 8 ≠ 0 := by
  obtain ⟨rfl, he⟩ | ⟨hne, h8, he⟩ | ⟨hne, h8, he⟩ := encodeBytes_cases cfg pe bs iw <;> rw [he]
  · simp
  · simp [hne, h8]
  · exact ⟨fun h => (nomatch padBytes_error h), fun h => absurd h8 h.2⟩

/-- With a whole number of bytes and parameters that resolve, `ENCODE` keeps the leading bytes and appends zeros; the empty
array falls under the same formula (40_encode.md R73, R76). -/
theorem encodeBytes_of_resolved {cfg : Config} {pe : Option Bool} {bs : Option Int} {m : Nat} {iw : List Entry}
    (ha : admissible iw = true) (h8 : bitLength iw % 8 = 0) (hm : resolveBs cfg.zeroBsPolicy bs = .ok m) :
    encodeBytes cfg pe bs iw = .ok (truncated iw ++
      List.replicate (paddedLength (pe.getD true) m (bitLength iw / 8) - bitLength iw / 8) 0#8) := by
  obtain ⟨rfl, he⟩ | ⟨-, hfraction, -⟩ | ⟨-, -, he⟩ := encodeBytes_cases cfg pe bs iw
  · simp [he, truncated, paddedLength]
  · exact absurd h8 hfraction
  · rw [he, padBytes_of_resolved _ hm, truncated_length ha]

/-- Padding that is disabled gives its operand back. -/
theorem padBytes_disabled {cfg : Config} {bs : Option Int} {ib ob : List Byte}
    (h : padBytes cfg (some false) bs ib = .ok ob) : ob = ib := by
  cases hbs : resolveBs cfg.zeroBsPolicy bs with
  | error e => cases (padBytes_of_unresolved ib hbs).symm.trans h
  | ok m => simpa [padBytes_of_resolved ib hbs, paddedLength] using h.symm

/-- Without padding `ENCODE` gives the bytes it keeps. -/
theorem encodeBytes_disabled {cfg : Config} {bs : Option Int} {iw : List Entry} {ob : List Byte}
    (h : encodeBytes cfg (some false) bs iw = .ok ob) : ob = truncated iw := by
  obtain ⟨rfl, he⟩ | ⟨-, -, he⟩ | ⟨-, -, he⟩ := encodeBytes_cases cfg (some false) bs iw <;> rw [he] at h
  · cases h; rfl
  · cases h
  · exact padBytes_disabled h

/-! ### What `ENCODE` depends on (40_encode.md R75) -/

/-- W1 and W2 speak of the tags alone (10_state.md R14). -/
theorem admissible_eq_tags (a : List Entry) : admissible a =
    ((a.map Entry.sig).dropLast.all (fun k => decide (k = 32#8)) && (a.map Entry.sig).getLast?.all legalSig) := by
  simp [admissible, fullButLast, lastTagLegal, ← List.map_dropLast, List.all_map, Function.comp_def]
  cases a.getLast? <;> rfl

theorem admissible_congr {a a' : List Entry} (h : a'.map (fun e => e.sig) = a.map (fun e => e.sig)) :
    admissible a' = admissible a := by
  rw [admissible_eq_tags a', admissible_eq_tags a]
  exact congrArg (fun tags : List (BitVec 8) => tags.dropLast.all _ && tags.getLast?.all _) h

/-- `ENCODE` of two admissible arrays of one length with the same bit string is the same: either both have a fraction of a
byte, or the bytes kept have the same bits. -/
theorem encodeBytes_congr (cfg : Config) (pe : Option Bool) (bs : Option Int) {a a' : List Entry}
    (ha : admissible a = true) (ha' : admissible a' = true) (hlen : a.length = a'.length) (h : bits a = bits a') :
    encodeBytes cfg pe bs a = encodeBytes cfg pe bs a' := by
  have hbits : bitLength a = bitLength a' := by
    rw [bitLength_eq_sum_of_admissible ha, bitLength_eq_sum_of_admissible ha', ← bits_length, ← bits_length, h]
  by_cases h8 : bitLength a' % 8 = 0
  · have kept : truncated a = truncated a' :=
      bufferBits_inj (by rw [bufferBits_truncated ha (hbits ▸ h8), bufferBits_truncated ha' h8, h])
    simp only [encodeBytes, hlen, hbits, kept]
  · simp only [encodeBytes, hlen, hbits, if_pos h8]

/-! ### The commands answered -/

/-- A command that appends no record answers what `answerOf` says, and changes nothing else. -/
theorem exec_eq_answered_iff {s : State} {c : Command} {i : Instr} {st : Status} {r : Result} (h : s.inFlight = some c)
    (hi : recordsOf s.sinkPresent i c = []) :
    exec i s = .next (s.answered c st r) ↔ answerOf s.config i c = .ok (st, r) := by
  rw [exec_eq_answer h]
  cases answerOf s.config i c with
  | error e => simp
  | ok a => simp [State.afterCommand_of_noRecord hi, State.answered_inj, Prod.ext_iff]

/-- `ENCODE` answers the leading bytes and the padding (40_encode.md R74, R76). The operand is within `MAXLEN` because the
result is no shorter. -/
theorem exec_encode_resolved {s : State} {c : Command} {pe : Option Bool} {bs : Option Int} {m : Nat}
    (h : s.inFlight = some c) (ha : admissible c.iw = true) (h8 : bitLength c.iw % 8 = 0)
    (hm : resolveBs s.config.zeroBsPolicy bs = .ok m)
    (hl : admitsLength s.config (paddedLength (pe.getD true) m (bitLength c.iw / 8)) = true) :
    exec (.encode pe bs) s = .next (s.answered c .ok (.bytes (truncated c.iw ++
      List.replicate (paddedLength (pe.getD true) m (bitLength c.iw / 8) - bitLength c.iw / 8) 0#8))) := by
  have hle := le_paddedLength (pe.getD true) m (bitLength c.iw / 8)
  refine (exec_eq_answered_iff h rfl).2 (answerOf_encode.2 ⟨?_, ha, ?_⟩)
  · exact admitsLength_mono hl ((length_le_bitLength_div_eight ha h8).trans hle)
  · refine concluded_bytes_eq_ok.2 (.inr ⟨_, encodeBytes_of_resolved ha h8 hm, ?_, rfl⟩)
    rwa [List.length_append, truncated_length ha, List.length_replicate, Nat.add_sub_cancel' hle]

/-- `PAD` answers its operand and the padding (42_pad.md R92, R95). -/
theorem exec_pad_resolved {s : State} {c : Command} {pe : Option Bool} {bs : Option Int} {m : Nat}
    (h : s.inFlight = some c) (hm : resolveBs s.config.zeroBsPolicy bs = .ok m)
    (hl : admitsLength s.config (paddedLength (pe.getD true) m c.ib.length) = true) :
    exec (.pad pe bs) s = .next (s.answered c .ok (.bytes (c.ib ++
      List.replicate (paddedLength (pe.getD true) m c.ib.length - c.ib.length) 0#8))) := by
  have hle := le_paddedLength (pe.getD true) m c.ib.length
  refine (exec_eq_answered_iff h rfl).2 (answerOf_pad.2 ⟨admitsLength_mono hl hle, ?_⟩)
  refine concluded_bytes_eq_ok.2 (.inr ⟨_, padBytes_of_resolved _ hm, ?_, rfl⟩)
  rwa [List.length_append, List.length_replicate, Nat.add_sub_cancel' hle]

/-- `DECODE` answers the words of its operand (41_decode.md R80). -/
theorem exec_decode_iff {s : State} {c : Command} {w : List Entry} (h : s.inFlight = some c) :
    exec .decode s = .next (s.answered c .ok (.bits w)) ↔
      admitsLength s.config c.ib.length = true ∧ w = decodeBytes c.ib := by
  simp [exec_eq_answered_iff h (i := .decode) rfl, answerOf_decode]

/-! ### The array `DECODE` gives (41_decode.md R84) -/

/-- A full word adds 32 bits, whatever follows it. -/
theorem bitLength_cons_full {e : Entry} (h : e.sig = 32#8) (rest : List Entry) :
    bitLength (e :: rest) = 32 + bitLength rest := by
  cases rest with
  | nil => simp [h]
  | cons e' rest => exact bitLength_cons_cons e e' rest

theorem admissible_cons_full {e : Entry} {rest : List Entry} (h : e.sig = 32#8) (hr : admissible rest = true) :
    admissible (e :: rest) = true := by
  cases rest with
  | nil => simp [h, legalSig]
  | cons e' rest => simp [h, hr]

theorem truncated_cons_full {e : Entry} (h : e.sig = 32#8) (rest : List Entry) :
    truncated (e :: rest) = bytes4 e.value ++ truncated rest := by
  cases rest with
  | nil => simp [h, bytes4, truncated]
  | cons e' rest => exact truncated_cons_cons e e' rest

theorem decodeBytes_length (ib : List Byte) : (decodeBytes ib).length = (ib.length + 3) / 4 := by
  induction ib using bytes_by_four with
  | h0 => rfl
  | h1 a => simp [decodeBytes_one]
  | h2 a b => simp [decodeBytes_two]
  | h3 a b c => simp [decodeBytes_three]
  | h4 a b c d rest ih => simp only [decodeBytes_cons, List.length_cons, ih]; omega

theorem bitLength_decodeBytes (ib : List Byte) : bitLength (decodeBytes ib) = 8 * ib.length := by
  induction ib using bytes_by_four with
  | h0 => rfl
  | h1 a => simp [decodeBytes_one]
  | h2 a b => simp [decodeBytes_two]
  | h3 a b c => simp [decodeBytes_three]
  | h4 a b c d rest ih => simp only [decodeBytes_cons, bitLength_cons_full, List.length_cons, ih]; omega

theorem admissible_decodeBytes (ib : List Byte) : admissible (decodeBytes ib) = true := by
  induction ib using bytes_by_four with
  | h0 => rfl
  | h1 a => simp [decodeBytes_one, legalSig]
  | h2 a b => simp [decodeBytes_two, legalSig]
  | h3 a b c => simp [decodeBytes_three, legalSig]
  | h4 a b c d rest ih => exact decodeBytes_cons a b c d rest ▸ admissible_cons_full rfl ih

/-- The bytes that `ENCODE` keeps of what `DECODE` gives are the bytes decoded: a tail is a word filled up with zero bytes
(45_laws.md R112). -/
theorem truncated_decodeBytes (ib : List Byte) : truncated (decodeBytes ib) = ib := by
  induction ib using bytes_by_four with
  | h0 => rfl
  | h1 a =>
    have word : (a ++ 0#24 : Word) = a ++ 0#8 ++ 0#8 ++ 0#8 := by rw [BitVec.append_assoc, BitVec.append_assoc]; rfl
    rw [decodeBytes_one, truncated_singleton, word, bytes4_append]; simp
  | h2 a b =>
    have word : (a ++ b ++ 0#16 : Word) = a ++ b ++ 0#8 ++ 0#8 := by rw [BitVec.append_assoc (x₃ := 0#8)]; rfl
    rw [decodeBytes_two, truncated_singleton, word, bytes4_append]; simp
  | h3 a b c => rw [decodeBytes_three, truncated_singleton, bytes4_append]; simp
  | h4 a b c d rest ih => rw [decodeBytes_cons, truncated_cons_full rfl, bytes4_append, ih]; rfl

/-- `DECODE` keeps the bit string (41_decode.md R84). -/
theorem bits_decodeBytes (ib : List Byte) : bits (decodeBytes ib) = bufferBits ib := by
  rw [← bufferBits_truncated (admissible_decodeBytes ib) (by simp [bitLength_decodeBytes]), truncated_decodeBytes]

/-! ### The obligations -/

/-- Settles O13: `L` is the bit length in bytes, and `k` is what the padded length exceeds it by. -/
theorem encodeAnswersTheBytes : Obligations.EncodeAnswersTheBytes := by
  intro s c pe bs last m L k trunc hc ha hlast hlast8 hm hL hk htrunc _ hresult
  obtain ⟨hpos, -⟩ := last_sig_legal ha hlast
  have hbits : bitLength c.iw = 8 * L := by rw [bitLength_of_getLast? hlast, hL]; omega
  have hbytes : bitLength c.iw / 8 = L := by omega
  obtain rfl : trunc = truncated c.iw := by rw [htrunc, truncated, hbytes]; rfl
  have hpadded : paddedLength (pe.getD true) m L = L + k := by rw [paddedLength, hk]; split <;> rfl
  refine ⟨hbytes ▸ truncated_length ha, hbits.symm, by omega, ?_⟩
  have hexec := exec_encode_resolved (pe := pe) hc ha (by omega) hm (by rwa [hbytes, hpadded])
  rwa [hbytes, hpadded, Nat.add_sub_cancel_left] at hexec

/-- Settles O14: the response is `InvalidLength` when the bytes are, and `PAD` never gives that error. -/
theorem encodeInvalidLengthExactly : Obligations.EncodeInvalidLengthExactly := by
  intro s c pe bs hc ha hl
  refine ⟨?_, rfl, fun last hlast => by rw [bitLength_mod_eight hlast]⟩
  rw [exec_eq_answered_iff hc rfl, answerOf_encode, concluded_bytes_eq_ok]
  simp [hl, ha, encodeBytes_eq_invalidLength_iff]

/-- Settles O16: equal bit strings are the bits of equal bytes. -/
theorem encodeIgnoresInsignificantBits : Obligations.EncodeIgnoresInsignificantBits := by
  intro s c c' pe bs hsite ha htags hbits
  have ha' : admissible c'.iw = true := (admissible_congr htags).trans ha
  have hlen : c'.iw.length = c.iw.length := by simpa using congrArg List.length htags
  have hanswer : answerOf s.config (.encode pe bs) c' = answerOf s.config (.encode pe bs) c := by
    simp only [answerOf, ha, ha', hlen, encodeBytes_congr s.config pe bs ha' ha hlen hbits]
  have hafter (a : Status × Result) :
      (s.issue c').afterCommand (.encode pe bs) c' a = (s.issue c).afterCommand (.encode pe bs) c a := by
    simp [State.afterCommand, State.answered, State.issue, recordsOf, hsite]
  rw [exec_eq_answer (State.issue_inFlight s c'), exec_eq_answer (State.issue_inFlight s c)]
  simp only [State.issue_config, hanswer, hafter]

/-- Settles O29: the padded bytes are the bytes kept and zeros, and `DECODE` turns bytes into their bits. -/
theorem inverseModuloPadding : Obligations.InverseModuloPadding := by
  intro s c pe bs m ha h8 hm hl
  have hle := le_paddedLength (pe.getD true) m (bitLength c.iw / 8)
  have hlen := truncated_length ha
  refine ⟨truncated c.iw, _, _, ?_, exec_encode_resolved rfl ha h8 hm hl, fun d hd => ?_,
    fun d hd => (exec_decode_iff rfl).2 ⟨?_, congrArg decodeBytes hd.symm⟩, ?_⟩
  · simpa [paddedLength] using
      exec_encode_resolved (s := s.issue c) (pe := some false) (bs := none) rfl ha h8 rfl (admitsLength_mono hl hle)
  · simpa [hd, hlen] using exec_pad_resolved (s := s.issue d) (pe := pe) rfl hm (by rwa [hd, hlen])
  · simpa [hd, hlen, Nat.add_sub_cancel' hle] using hl
  · rw [bits_decodeBytes, bufferBits_append, bufferBits_truncated ha h8, bufferBits_zeros]
    simp

/-- Settles O30: `ENCODE` without padding gives the bytes it keeps, and `DECODE` 8 bits for each byte. -/
theorem resultLengths : Obligations.ResultLengths := by
  intro s c
  refine ⟨fun bs b h => ?_, fun w h => ?_⟩
  · obtain ⟨-, ha, hconcluded⟩ := answerOf_encode.1 ((exec_eq_answered_iff rfl rfl).1 h)
    obtain ⟨e, -, he⟩ | ⟨ob, hob, -, hb⟩ := concluded_bytes_eq_ok.1 hconcluded
    · cases he
    · cases hb
      rw [encodeBytes_disabled hob, truncated_length ha]
  · obtain ⟨-, rfl⟩ := (exec_decode_iff rfl).1 h
    exact ⟨bitLength_decodeBytes c.ib, decodeBytes_length c.ib⟩

end Sys2Proof.Machine
end

section
/-! The obligations of 41_decode.md: the entries `DECODE` answers, the shape of its result, and the invariant that every
recorded response is legal. -/

namespace Sys2Proof.Machine

/-! ### The entries of the result (41_decode.md R81, R82) -/

/-- Without its first 4-byte group a buffer gives the array without its first entry. -/
theorem decodeBytes_drop_four (ib : List Byte) : decodeBytes (ib.drop 4) = (decodeBytes ib).drop 1 := by
  cases ib using bytes_by_four with
  | h0 => rfl
  | h1 a => simp [decodeBytes_one]
  | h2 a b => simp [decodeBytes_two]
  | h3 a b c => simp [decodeBytes_three]
  | h4 a b c d rest => simp [decodeBytes_cons]

/-- Without its first `q` groups a buffer gives the array without its first `q` entries. -/
theorem decodeBytes_drop (ib : List Byte) (q : Nat) : decodeBytes (ib.drop (4 * q)) = (decodeBytes ib).drop q := by
  induction q with
  | zero => rfl
  | succ q ih => rw [Nat.mul_succ, ← List.drop_drop, decodeBytes_drop_four, ih, List.drop_drop]

/-- Entry `q` is the first entry that the bytes from `4q` on give. -/
theorem decodeBytes_getElem? (ib : List Byte) (q : Nat) : (decodeBytes ib)[q]? = (decodeBytes (ib.drop (4 * q)))[0]? := by
  rw [decodeBytes_drop, List.getElem?_drop, Nat.add_zero]

/-- A list from an index on is the element there and what follows it. -/
theorem drop_eq_cons_of_getElem? {α : Type} {l : List α} {i : Nat} {x : α} (h : l[i]? = some x) :
    l.drop i = x :: l.drop (i + 1) := by
  obtain ⟨hi, rfl⟩ := List.getElem?_eq_some_iff.1 h
  exact List.drop_eq_getElem_cons hi

/-! ### The result is well-formed (10_state.md R14, 41_decode.md R84) -/

/-- A full word has no insignificant bits. -/
theorem lowBitsZero_cons_full {e : Entry} {rest : List Entry} (h : e.sig = 32#8) (hr : lowBitsZero rest = true) :
    lowBitsZero (e :: rest) = true := by
  rw [lowBitsZero_iff] at hr ⊢
  exact List.forall_mem_cons.2 ⟨by simp [h], hr⟩

/-- Bits appended as zeros are 0. -/
theorem getLsbD_append_zeros {n k j : Nat} (x : BitVec n) (hj : j < k) : (x ++ 0#k).getLsbD j = false := by
  simp [BitVec.getLsbD_append, hj]

/-- W3: the bits below a tail are 0. -/
theorem lowBitsZero_decodeBytes (ib : List Byte) : lowBitsZero (decodeBytes ib) = true := by
  induction ib using bytes_by_four with
  | h0 => rfl
  | h1 a => simpa [decodeBytes_one, lowBitsZero_iff] using fun j => getLsbD_append_zeros (j := j) a
  | h2 a b => simpa [decodeBytes_two, lowBitsZero_iff] using fun j => getLsbD_append_zeros (j := j) (a ++ b)
  | h3 a b c => simpa [decodeBytes_three, lowBitsZero_iff] using fun j => getLsbD_append_zeros (j := j) (a ++ b ++ c)
  | h4 a b c d rest ih => exact decodeBytes_cons a b c d rest ▸ lowBitsZero_cons_full rfl ih

theorem wf_decodeBytes (ib : List Byte) : wf (decodeBytes ib) = true := by
  rw [wf, admissible_decodeBytes, lowBitsZero_decodeBytes, Bool.and_true]

/-! ### Legal responses (41_decode.md R84, 60_exceptions.md R136) -/

/-- A computation that gives a byte buffer is answered with a legal response: any bytes, or the error and no byte. -/
theorem legal_of_concluded_bytes {cfg : Config} {out : Except CodecError (List Byte)} {a : Status × Result} (site : Nat)
    (h : concluded cfg (out.map Result.bytes) = .ok a) : (Response.mk site a.1 a.2).legal = true := by
  obtain ⟨e, -, rfl⟩ | ⟨ob, -, -, rfl⟩ := concluded_bytes_eq_ok.1 h <;> rfl

/-- Every answer of a command makes a legal response: the one bit array answered is the one of `DECODE`. -/
theorem legal_of_answerOf {cfg : Config} {i : Instr} {c : Command} {a : Status × Result}
    (h : answerOf cfg i c = .ok a) : (Response.mk c.site a.1 a.2).legal = true := by
  cases i with
  | encode pe bs =>
    obtain ⟨-, -, hconcluded⟩ := answerOf_encode.1 h
    exact legal_of_concluded_bytes c.site hconcluded
  | decode =>
    obtain ⟨-, rfl⟩ := answerOf_decode.1 h
    exact wf_decodeBytes c.ib
  | pad pe bs =>
    obtain ⟨-, hconcluded⟩ := answerOf_pad.1 h
    exact legal_of_concluded_bytes c.site hconcluded
  | dump =>
    obtain ⟨-, rfl⟩ := answerOf_dump.1 h
    rfl

/-! ### The obligations -/

/-- Settles O42: a step that runs a command appends one legal response, and any other step appends none. -/
theorem stepKeepsResponsesLegal : Obligations.StepKeepsResponsesLegal := by
  intro s t hs h
  obtain ⟨c, hc⟩ | ⟨c, r, -, hr⟩ | ⟨u, hu, -, -, hresponses, -⟩ := step_cases s
  · obtain ⟨i, a, -, ha, rfl⟩ := step_answered hc h
    rw [State.responsesLegal] at hs
    simp [State.responsesLegal, List.all_append, hs, legal_of_answerOf ha]
  · cases hr.symm.trans h
  · cases hu.symm.trans h
    rwa [State.responsesLegal, hresponses]

/-- Settles O18: the entry asked for is the first one that the bytes from its own on give. -/
theorem decodeAnswersTheWords : Obligations.DecodeAnswersTheWords := by
  intro s c hc hl
  refine ⟨_, (exec_decode_iff hc).2 ⟨hl, rfl⟩, decodeBytes_length c.ib, fun j b0 b1 b2 b3 h0 h1 h2 h3 => ?_,
    fun q b0 hn h0 => ?_, fun q b0 b1 hn h0 h1 => ?_, fun q b0 b1 b2 hn h0 h1 h2 => ?_⟩
  all_goals rw [decodeBytes_getElem?, drop_eq_cons_of_getElem? h0]
  · rw [drop_eq_cons_of_getElem? h1, drop_eq_cons_of_getElem? h2, drop_eq_cons_of_getElem? h3, decodeBytes_cons]
    rfl
  · rw [← hn, List.drop_length, decodeBytes_one]
    rfl
  · rw [drop_eq_cons_of_getElem? h1, ← hn, List.drop_length, decodeBytes_two]
    rfl
  · rw [drop_eq_cons_of_getElem? h1, drop_eq_cons_of_getElem? h2, ← hn, List.drop_length, decodeBytes_three]
    rfl

/-- Settles O19: well-formed by W1, W2 and W3, and with the bits of the bytes decoded. -/
theorem decodeResultShape : Obligations.DecodeResultShape := by
  intro s c hc hl
  refine ⟨_, (exec_decode_iff hc).2 ⟨hl, rfl⟩, ?_, wf_decodeBytes c.ib, bitLength_decodeBytes c.ib, bits_decodeBytes c.ib⟩
  rw [decodeBytes_length]
  split_ifs <;> omega

end Sys2Proof.Machine
end

section
/-! The obligations of 42_pad.md: the zeros `PAD` appends, how many, and that the operand stands before them. -/

namespace Sys2Proof.Machine

/-! ### Block sizes that resolve (42_pad.md R91) -/

/-- A positive block size stands for itself. -/
theorem resolveBs_natCast (policy : ZeroBsPolicy) {m : Nat} (hm : 0 < m) : resolveBs policy (some (m : Int)) = .ok m := by
  have nonneg : ¬ (m : Int) < 0 := by omega
  have nonzero : (m : Int) ≠ 0 := by omega
  simp only [resolveBs, if_neg nonneg, if_neg nonzero, Int.toNat_natCast]

/-! ### The length after padding (42_pad.md R92, R97) -/

/-- The padded length as the operand's length and the number of zeros. -/
theorem paddedLength_eq_add (p : Bool) (m L : Nat) :
    paddedLength p m L = L + if p = false ∨ L % m = 0 then 0 else m - L % m := by
  unfold paddedLength; split <;> rfl

/-- Fewer than a block of zeros is appended. -/
theorem paddedLength_sub_le (p : Bool) (m L : Nat) : paddedLength p m L - L ≤ m - 1 := by
  rw [paddedLength_eq_add]; split_ifs <;> omega

/-- With padding enabled the length is rounded up to whole blocks. -/
theorem paddedLength_true_eq_ceil {m : Nat} (hm : 0 < m) (L : Nat) :
    paddedLength true m L = m * ((L + m - 1) / m) := by
  obtain ⟨q, hq⟩ := Nat.dvd_of_mod_eq_zero (paddedLength_mod hm L)
  have hle := le_paddedLength true m L
  have hshort := paddedLength_sub_le true m L
  have blocks : (L + m - 1) / m = q := by
    rw [Nat.div_eq_iff hm, Nat.mul_comm q m, ← hq]
    omega
  rw [blocks, hq]

/-- Nothing is appended exactly when padding is disabled or the length is a multiple of the block size. -/
theorem paddedLength_eq_self_iff {m : Nat} (hm : 0 < m) (p : Bool) (L : Nat) :
    paddedLength p m L = L ↔ p = false ∨ L % m = 0 := by
  have hlt := Nat.mod_lt L hm
  rw [paddedLength_eq_add]
  split_ifs with h
  · simp [h]
  · simp only [h, iff_false]; omega

/-! ### The commands answered -/

/-- A `PAD` that answers `OK` answers what its operand is padded to. -/
theorem padBytes_of_exec_pad {s : State} {c : Command} {pe : Option Bool} {bs : Option Int} {ob : List Byte}
    (hc : s.inFlight = some c) (h : exec (.pad pe bs) s = .next (s.answered c .ok (.bytes ob))) :
    padBytes s.config pe bs c.ib = .ok ob := by
  obtain ⟨-, hconcluded⟩ := answerOf_pad.1 ((exec_eq_answered_iff hc rfl).1 h)
  obtain ⟨e, -, he⟩ | ⟨ob', hob, -, heq⟩ := concluded_bytes_eq_ok.1 hconcluded
  · cases he
  · cases heq; exact hob

/-! ### The obligations -/

/-- Settles O20: the block size resolves to `m`, and `k` is what the padded length exceeds the operand's by. -/
theorem padAppendsZeros : Obligations.PadAppendsZeros := by
  intro s c pe bs m k hc hbs hk _ hresult
  have hm : resolveBs s.config.zeroBsPolicy bs = .ok m := by
    obtain ⟨rfl, rfl⟩ | ⟨rfl, hpolicy, rfl⟩ | ⟨hpos, rfl⟩ := hbs
    · rfl
    · rw [hpolicy]; rfl
    · exact resolveBs_natCast _ hpos
  have hpadded : paddedLength (pe.getD true) m c.ib.length = c.ib.length + k := by rw [paddedLength_eq_add, hk]
  refine ⟨?_, fun henabled => ?_⟩
  · simpa [hpadded] using exec_pad_resolved (pe := pe) hc hm (hpadded ▸ hresult)
  · rw [← hpadded, henabled, paddedLength_true_eq_ceil (resolveBs_pos hm)]

/-- Settles O23: the answer is the operand and zeros, as many as the padded length exceeds the operand's by. -/
theorem padBoundAndPrefix : Obligations.PadBoundAndPrefix := by
  intro s c pe bs m ob hc hm h
  have hpos := resolveBs_pos hm
  have hle := le_paddedLength (pe.getD true) m c.ib.length
  obtain rfl := Except.ok.inj ((padBytes_of_resolved c.ib hm).symm.trans (padBytes_of_exec_pad hc h))
  have disabled : pe.getD true = false ↔ pe = some false := by cases pe <;> simp
  have hlen : (c.ib ++ List.replicate (paddedLength (pe.getD true) m c.ib.length - c.ib.length) 0#8).length =
      paddedLength (pe.getD true) m c.ib.length := by
    rw [List.length_append, List.length_replicate, Nat.add_sub_cancel' hle]
  rw [hlen, List.take_left, List.drop_left, ← disabled]
  exact ⟨hle, paddedLength_sub_le _ _ _, hpos, paddedLength_eq_self_iff hpos _ _, rfl,
    fun _ => List.eq_of_mem_replicate⟩

end Sys2Proof.Machine
end

section
/-! The obligations of 43_dump.md: the answer of `DUMP`, the hexadecimal texts, and the text of a dump line by line. -/

namespace Sys2Proof.Machine

/-! ### Hexadecimal texts (43_dump.md R100) -/

theorem digitValue_hexDigit {d : Nat} (hd : d < 16) : digitValue (hexDigit d) = some d := by
  interval_cases d <;> rfl

/-- Only the digit 0 is written `0`. -/
theorem hexDigit_ne_zero {d : Nat} (hd : d < 16) (h : d ≠ 0) : hexDigit d ≠ '0' := fun heq =>
  h (Option.some.inj ((digitValue_hexDigit hd).symm.trans (congrArg digitValue heq)))

theorem map_digitValue_map_hexDigit {ds : List Nat} (h : ∀ d ∈ ds, d < 16) :
    (ds.map hexDigit).map digitValue = ds.map some := by
  rw [List.map_map]
  exact List.map_congr_left fun d hd => digitValue_hexDigit (h d hd)

/-- With enough fuel the digits written are Mathlib's digits in base 16, the highest first. -/
theorem hexDigits_eq_digits {fuel n : Nat} (h0 : n ≠ 0) (h : n < fuel) :
    hexDigits fuel n = (Nat.digits 16 n).reverse.map hexDigit := by
  induction fuel generalizing n with
  | zero => omega
  | succ fuel ih =>
    by_cases hlt : n < 16
    · simp [hexDigits, hlt, Nat.digits_of_lt 16 n h0 hlt]
    · rw [hexDigits, if_neg hlt, ih (by omega) (by omega), Nat.digits_def' (n := n) (by decide) (by omega),
        List.reverse_cons, List.map_append, List.map_singleton]

theorem hexNat_eq_digits {n : Nat} (h : n ≠ 0) : hexNat n = (Nat.digits 16 n).reverse.map hexDigit :=
  hexDigits_eq_digits h n.lt_succ_self

/-- Digits read from the highest down give the number they are the digits of. -/
theorem foldl_reverse_digits (n : Nat) : (Nat.digits 16 n).reverse.foldl (fun acc d => 16 * acc + d) 0 = n := by
  have h := Nat.ofDigits_digits 16 n
  rw [Nat.ofDigits_eq_foldr] at h
  simpa [List.foldl_reverse, Nat.add_comm] using h

/-- `HEX2` writes both digits of a byte, the higher one first. -/
theorem map_digitValue_hex2 {n : Nat} (h : n < 256) : (hex2 n).map digitValue = [some (n / 16), some (n % 16)] := by
  have high : n / 16 < 16 := by omega
  have low : n % 16 < 16 := n.mod_lt (by decide)
  simp [hex2, Nat.mod_eq_of_lt high, digitValue_hexDigit high, digitValue_hexDigit low]

/-- `HEX` writes digits that stand for the number. -/
theorem hexNat_positional (n : Nat) :
    ∃ ds : List Nat, (hexNat n).map digitValue = ds.map some ∧ ds.foldl (fun acc d => 16 * acc + d) 0 = n := by
  by_cases h : n = 0
  · subst h
    exact ⟨[0], rfl, rfl⟩
  · refine ⟨(Nat.digits 16 n).reverse, ?_, foldl_reverse_digits n⟩
    rw [hexNat_eq_digits h]
    exact map_digitValue_map_hexDigit fun d hd => Nat.digits_lt_base (by decide) (List.mem_reverse.1 hd)

/-- `HEX` writes no leading zero: the highest digit of a number is not 0. -/
theorem hexNat_head?_ne_zero {n : Nat} (h : n ≠ 0) : (hexNat n).head? ≠ some '0' := by
  have nonempty : Nat.digits 16 n ≠ [] := Nat.digits_ne_nil_iff_ne_zero.2 h
  have highest : (Nat.digits 16 n).getLast nonempty < 16 := Nat.digits_lt_base (by decide) (List.getLast_mem nonempty)
  simpa [hexNat_eq_digits h, List.getLast?_eq_some_getLast nonempty] using
    hexDigit_ne_zero highest (Nat.getLast_digit_ne_zero 16 h)

/-- Settles O26: the characters are the digits in base 16, whose highest is not 0. -/
theorem hexTextIsPositional : Obligations.HexTextIsPositional := fun n =>
  ⟨map_digitValue_hex2, hexNat_positional n, hexNat_head?_ne_zero, fun h => h ▸ rfl⟩

/-! ### The groups of a line (43_dump.md R102, R103) -/

theorem groupText_singleton (b : Byte) : groupText [b] 0 = hex2 b.toNat := by
  have value : (memRead [b] 0 1).toNat = b.toNat :=
    (congrArg BitVec.toNat (bigEndian_one b)).trans (BitVec.toNat_setWidth_of_le (by decide))
  simp [groupText, value]

/-- Two bytes in 4 digits are each byte in 2. -/
theorem groupText_cons_cons_zero (b b' : Byte) (rest : List Byte) :
    groupText (b :: b' :: rest) 0 = hex2 b.toNat ++ hex2 b'.toNat := by
  have hb := b.isLt
  have hb' := b'.isLt
  have value : (memRead (b :: b' :: rest) 0 2).toNat = 256 * b.toNat + b'.toNat := by
    have sum : (b ++ b').toNat = b.toNat <<< 8 + b'.toNat := by
      rw [BitVec.toNat_append, Nat.shiftLeft_add_eq_or_of_lt hb']
    simp only [memRead, List.drop_zero, List.take_succ_cons, List.take_zero, bigEndian_two, BitVec.toNat_setWidth, sum]
    omega
  have high : (256 * b.toNat + b'.toNat) / 256 = b.toNat := by omega
  have low : (256 * b.toNat + b'.toNat) % 256 = b'.toNat := by omega
  simp [groupText, value, hex4, high, low]

theorem groupText_cons_cons_succ (b b' : Byte) (rest : List Byte) (j : Nat) :
    groupText (b :: b' :: rest) (2 * (j + 1)) = groupText rest (2 * j) := by
  have last : 2 * (j + 1) + 1 < (b :: b' :: rest).length ↔ 2 * j + 1 < rest.length := by simp; omega
  simp only [groupText, last, memRead]
  rfl

/-- The groups of some bytes are the texts at their even indices. -/
theorem dumpGroups_eq_map (bs : List Byte) :
    dumpGroups bs = (List.range ((bs.length + 1) / 2)).map fun j => groupText bs (2 * j) := by
  induction bs using dumpGroups.induct with
  | case1 => rfl
  | case2 b => simp [dumpGroups, groupText_singleton]
  | case3 b b' rest ih =>
    have count : ((b :: b' :: rest).length + 1) / 2 = (rest.length + 1) / 2 + 1 := by simp; omega
    rw [dumpGroups, ih, count, List.range_succ_eq_map]
    simp [groupText_cons_cons_zero, groupText_cons_cons_succ, Function.comp_def]

/-- The bytes of a line. -/
def lineBytes (ib : List Byte) (k : Nat) : List Byte := (ib.drop (16 * k)).take 16

theorem lineBytes_length (ib : List Byte) (k : Nat) : (lineBytes ib k).length = min 16 (ib.length - 16 * k) := by
  simp [lineBytes]

/-- Reading within a line is reading the buffer from the line's offset on. -/
theorem memRead_lineBytes (ib : List Byte) (k : Nat) {i n : Nat} (h : i + n ≤ 16) :
    memRead (lineBytes ib k) i n = memRead ib (16 * k + i) n := by
  rw [memRead, lineBytes, List.drop_take, List.take_take, List.drop_drop, Nat.min_eq_left (by omega), memRead]

theorem groupText_lineBytes (ib : List Byte) (k : Nat) {j : Nat} (h : j < 8) :
    groupText (lineBytes ib k) (2 * j) = groupText ib (16 * k + 2 * j) := by
  have last : 2 * j + 1 < (lineBytes ib k).length ↔ 16 * k + 2 * j + 1 < ib.length := by
    rw [lineBytes_length]; omega
  simp only [groupText, last, memRead_lineBytes ib k (show 2 * j + 2 ≤ 16 by omega),
    memRead_lineBytes ib k (show 2 * j + 1 ≤ 16 by omega)]

/-! ### The lines (43_dump.md R104) -/

/-- What stands between is what each part but the first begins with. -/
theorem intercalate_cons_eq_flatMap (sep x : List Char) (xs : List (List Char)) :
    List.intercalate sep (x :: xs) = x ++ xs.flatMap (sep ++ ·) := by
  induction xs generalizing x with
  | nil => simp
  | cons y ys ih => simp [ih]

theorem groupLead_line (k : Nat) : groupLead (16 * k) = '\n' :: (hexNat (16 * k) ++ ['\t']) := by
  simp [groupLead]

theorem groupLead_within_line (k : Nat) {j : Nat} (h0 : j ≠ 0) (h : j < 8) : groupLead (16 * k + 2 * j) = [' '] := by
  rw [groupLead, if_neg (by omega)]

/-- A line with a byte in it is what the loop writes for its groups. -/
theorem dumpLine_eq_flatMap {ib : List Byte} {k : Nat} (h : 16 * k < ib.length) :
    dumpLine ib k = (List.range (min 8 ((ib.length + 1) / 2 - 8 * k))).flatMap fun j =>
      groupLead (16 * k + 2 * j) ++ groupText ib (16 * k + 2 * j) := by
  obtain ⟨n, hn⟩ : ∃ n, min 8 ((ib.length + 1) / 2 - 8 * k) = n + 1 := Nat.exists_eq_succ_of_ne_zero (by omega)
  have count : ((lineBytes ib k).length + 1) / 2 = n + 1 := by rw [lineBytes_length]; omega
  have groups : dumpGroups (lineBytes ib k) = (List.range (n + 1)).map fun j => groupText ib (16 * k + 2 * j) := by
    rw [dumpGroups_eq_map, count]
    exact List.map_congr_left fun j hj => groupText_lineBytes ib k (by rw [List.mem_range] at hj; omega)
  have spaces : ∀ j ∈ List.range n, groupLead (16 * k + 2 * (j + 1)) = [' '] := fun j hj =>
    groupLead_within_line k j.succ_ne_zero (by rw [List.mem_range] at hj; omega)
  rw [dumpLine, ← lineBytes, groups, hn, List.range_succ_eq_map, List.map_cons, intercalate_cons_eq_flatMap,
    List.flatMap_cons, Nat.mul_zero, Nat.add_zero, groupLead_line, List.map_map, List.flatMap_map, List.flatMap_map]
  simpa using List.flatMap_congr fun j hj => by simp [spaces j hj]

/-- A loop over at most `8 * m` indices, as `m` loops over at most 8. -/
theorem flatMap_range_by_eights (f : Nat → List Char) (n m : Nat) :
    (List.range (min n (8 * m))).flatMap f =
      (List.range m).flatMap fun k => (List.range (min 8 (n - 8 * k))).flatMap fun j => f (8 * k + j) := by
  induction m with
  | zero => simp
  | succ m ih =>
    rw [List.range_succ, List.flatMap_append, ← ih]
    obtain hle | hge := Nat.le_total n (8 * m)
    · simp [Nat.sub_eq_zero_of_le hle, Nat.min_eq_left hle, Nat.min_eq_left (show n ≤ 8 * (m + 1) by omega)]
    · have grown : min n (8 * (m + 1)) = 8 * m + min 8 (n - 8 * m) := by omega
      rw [grown, Nat.min_eq_right hge, List.range_add, List.flatMap_append, List.flatMap_map, List.flatMap_singleton]

/-- Settles O25: the loop's groups, eight to a line. -/
theorem dumpTextByLines : Obligations.DumpTextByLines := by
  intro ib
  have all : min ((ib.length + 1) / 2) (8 * ((ib.length + 15) / 16)) = (ib.length + 1) / 2 := by omega
  rw [render, ← all, flatMap_range_by_eights]
  refine List.flatMap_congr fun k hk => ?_
  have index (j : Nat) : 2 * (8 * k + j) = 16 * k + 2 * j := by omega
  simp only [index]
  exact (dumpLine_eq_flatMap (by rw [List.mem_range] at hk; omega)).symm

/-! ### The command answered (43_dump.md R101, R105) -/

/-- Settles O24: `DUMP` is always answered, and its records are the text of its operand if the sink is present. -/
theorem dumpAppendsOneRecord : Obligations.DumpAppendsOneRecord := by
  intro s c hc hl
  have sink : s.sink ++ recordsOf s.sinkPresent .dump c =
      if s.sinkPresent then s.sink ++ [render c.ib] else s.sink := by
    cases s.sinkPresent <;> simp [recordsOf]
  rw [exec_eq_answer hc, answerOf_dump.2 ⟨hl, rfl⟩, ← sink]
  rfl

end Sys2Proof.Machine
end

section
/-! The obligations of 45_laws.md: the round trips of `ENCODE` and `DECODE`, the laws of padding, the bytes kept of a
partial word, and the empty operand. -/

namespace Sys2Proof.Machine

/-! ### When `PAD` and `ENCODE` answer `OK` -/

theorem exec_pad_iff {s : State} {c : Command} {pe : Option Bool} {bs : Option Int} {ob : List Byte}
    (h : s.inFlight = some c) :
    exec (.pad pe bs) s = .next (s.answered c .ok (.bytes ob)) ↔
      admitsLength s.config c.ib.length = true ∧ padBytes s.config pe bs c.ib = .ok ob ∧
        admitsLength s.config ob.length = true := by
  simp [exec_eq_answered_iff h (i := .pad pe bs) rfl, answerOf_pad, concluded_bytes_eq_ok]

theorem exec_encode_iff {s : State} {c : Command} {pe : Option Bool} {bs : Option Int} {ob : List Byte}
    (h : s.inFlight = some c) :
    exec (.encode pe bs) s = .next (s.answered c .ok (.bytes ob)) ↔
      admitsLength s.config c.iw.length = true ∧ admissible c.iw = true ∧ encodeBytes s.config pe bs c.iw = .ok ob ∧
        admitsLength s.config ob.length = true := by
  simp [exec_eq_answered_iff h (i := .encode pe bs) rfl, answerOf_encode, concluded_bytes_eq_ok]

/-- Without padding `ENCODE` answers the bytes it keeps (40_encode.md R74). -/
theorem exec_encode_disabled {s : State} {c : Command} {bs : Option Int} {m : Nat} (h : s.inFlight = some c)
    (ha : admissible c.iw = true) (h8 : bitLength c.iw % 8 = 0) (hm : resolveBs s.config.zeroBsPolicy bs = .ok m)
    (hl : admitsLength s.config (bitLength c.iw / 8) = true) :
    exec (.encode (some false) bs) s = .next (s.answered c .ok (.bytes (truncated c.iw))) := by
  simpa [paddedLength] using exec_encode_resolved (pe := some false) h ha h8 hm hl

/-! ### The bytes kept of the last word (45_laws.md R118) -/

/-- What `ENCODE` keeps is every word before the last one and the first bytes of the last one. -/
theorem truncated_of_getLast? {a : List Entry} {last : Entry} (h : a.getLast? = some last) :
    truncated a = materialize a.dropLast ++ (bytes4 last.value).take (last.sig.toNat / 8) := by
  have words : materialize a = materialize a.dropLast ++ bytes4 last.value := by
    conv_lhs => rw [← List.dropLast_append_getLast? last h]
    simp [materialize]
  have kept : bitLength a / 8 = (materialize a.dropLast).length + last.sig.toNat / 8 := by
    rw [bitLength_of_getLast? h, materialize_length, List.length_dropLast]; omega
  rw [truncated, words, kept, List.take_length_add_append]

/-- Settles O17: the bytes kept end with the first bytes of the last word, which are its high-order ones. -/
theorem partialWordTruncation : Obligations.PartialWordTruncation := by
  intro s c last k hc hwf hlast hk hpartial hl
  obtain ⟨ha, -⟩ : admissible c.iw = true ∧ lowBitsZero c.iw = true := by simpa [wf] using hwf
  have h8 : bitLength c.iw % 8 = 0 := by rw [bitLength_mod_eight hlast]; omega
  have hlen : bitLength c.iw / 8 = 4 * (c.iw.length - 1) + k / 8 := by rw [bitLength_of_getLast? hlast]; omega
  refine ⟨_, exec_encode_disabled hc ha h8 rfl (by rwa [hlen]), by rw [truncated_length ha, hlen], fun t ht => ?_⟩
  have before : (materialize c.iw.dropLast).length = 4 * (c.iw.length - 1) := by simp
  rw [truncated_of_getLast? hlast, ← before, List.getElem?_append_right (Nat.le_add_right _ _), Nat.add_sub_cancel_left,
    List.getElem?_take_of_lt (by omega), bytes4_getElem? _ (by omega), byteOfWord,
    BitVec.setWidth_ushiftRight_eq_extractLsb]

/-! ### The length after padding (45_laws.md R115) -/

/-- With padding enabled the new length is the least multiple of the block size that is no shorter: a smaller one would
be at least a whole block below it. -/
theorem paddedLength_true_least {m : Nat} (hm : 0 < m) (L : Nat) :
    paddedLength true m L % m = 0 ∧ L ≤ paddedLength true m L ∧
      ∀ x, x % m = 0 → L ≤ x → paddedLength true m L ≤ x := by
  refine ⟨paddedLength_mod hm L, le_paddedLength true m L, fun x hx hLx => ?_⟩
  by_contra hlt
  have blocks : m ∣ paddedLength true m L - x :=
    Nat.dvd_sub (Nat.dvd_of_mod_eq_zero (paddedLength_mod hm L)) (Nat.dvd_of_mod_eq_zero hx)
  have block : m ≤ paddedLength true m L - x := Nat.le_of_dvd (by omega) blocks
  have short := paddedLength_sub_le true m L
  omega

/-- The length of what `PAD` gives. -/
theorem padBytes_length {cfg : Config} {pe : Option Bool} {bs : Option Int} {m : Nat} {ib ob : List Byte}
    (hm : resolveBs cfg.zeroBsPolicy bs = .ok m) (h : padBytes cfg pe bs ib = .ok ob) :
    ob.length = paddedLength (pe.getD true) m ib.length := by
  obtain rfl := Except.ok.inj ((padBytes_of_resolved ib hm).symm.trans h)
  rw [List.length_append, List.length_replicate, Nat.add_sub_cancel' (le_paddedLength _ _ _)]

/-- The length of what `ENCODE` gives. -/
theorem encodeBytes_length {cfg : Config} {pe : Option Bool} {bs : Option Int} {m : Nat} {iw : List Entry}
    {ob : List Byte} (ha : admissible iw = true) (hm : resolveBs cfg.zeroBsPolicy bs = .ok m)
    (h : encodeBytes cfg pe bs iw = .ok ob) : ob.length = paddedLength (pe.getD true) m (bitLength iw / 8) := by
  obtain ⟨rfl, he⟩ | ⟨-, -, he⟩ | ⟨-, -, he⟩ := encodeBytes_cases cfg pe bs iw <;> rw [he] at h
  · cases h; simp [paddedLength]
  · cases h
  · rw [padBytes_length hm h, truncated_length ha]

/-- Settles O21: `PAD` and `ENCODE` give the padded length of the bytes they pad. -/
theorem paddedLengthIsAligned : Obligations.PaddedLengthIsAligned := by
  intro s c n ob hn hc
  have hm := resolveBs_natCast s.config.zeroBsPolicy hn
  refine ⟨fun h => ?_, fun h => ?_, fun bs h => padBytes_disabled (padBytes_of_exec_pad hc h)⟩
  · rw [padBytes_length hm (padBytes_of_exec_pad hc h)]
    exact ⟨paddedLength_true_eq_ceil hn _, paddedLength_true_least hn _⟩
  · obtain ⟨-, ha, hbytes, -⟩ := (exec_encode_iff hc).1 h
    rw [encodeBytes_length ha hm hbytes]
    exact paddedLength_true_least hn _

/-! ### Padding twice (45_laws.md R114) -/

theorem paddedLength_idem {m : Nat} (hm : 0 < m) (p : Bool) (L : Nat) :
    paddedLength p m (paddedLength p m L) = paddedLength p m L := by
  rw [paddedLength_eq_self_iff hm]
  cases p with
  | false => exact .inl rfl
  | true => exact .inr (paddedLength_mod hm L)

/-- What is padded already has the length it is padded to. -/
theorem padBytes_idem {cfg : Config} {pe : Option Bool} {bs : Option Int} {ib ob : List Byte}
    (h : padBytes cfg pe bs ib = .ok ob) : padBytes cfg pe bs ob = .ok ob := by
  cases hm : resolveBs cfg.zeroBsPolicy bs with
  | error e => cases (padBytes_of_unresolved ib hm).symm.trans h
  | ok m =>
    rw [padBytes_of_resolved ob hm, padBytes_length hm h, paddedLength_idem (resolveBs_pos hm)]
    simp

/-- Settles O22: the result is its own padding, and it is within `MAXLEN` because it was answered. -/
theorem padIsIdempotent : Obligations.PadIsIdempotent := by
  rintro s c pe bs _ h d rfl
  obtain ⟨-, hbytes, hl⟩ := (exec_pad_iff (s := s.issue c) rfl).1 h
  exact (exec_pad_iff (s := s.issue d) rfl).2 ⟨hl, padBytes_idem hbytes, hl⟩

/-! ### The round trips (45_laws.md R112, R113) -/

/-- Settles O27: what `ENCODE` keeps of the words of a buffer is the buffer. -/
theorem roundTripFromBytes : Obligations.RoundTripFromBytes := by
  intro s c hl
  refine ⟨_, (exec_decode_iff rfl).2 ⟨hl, rfl⟩, fun d bs m hd hm => ?_⟩
  have hlen : bitLength (decodeBytes c.ib) = 8 * c.ib.length := bitLength_decodeBytes c.ib
  have hexec := exec_encode_disabled (s := s.issue d) (c := d) rfl (by rw [hd, admissible_decodeBytes])
    (by rw [hd, hlen]; omega) hm (by simpa [hd, hlen] using hl)
  rwa [hd, truncated_decodeBytes] at hexec

/-- The rest of an admissible array is admissible. -/
theorem admissible_tail {e : Entry} {rest : List Entry} (h : admissible (e :: rest) = true) : admissible rest = true := by
  obtain ⟨rfl, -, -⟩ | ⟨-, hrest⟩ := admissible_cons_cases h
  · exact admissible_nil
  · exact hrest

/-- The number of bits fixes the tags of an admissible array: the first tag is 32 while more bits follow it. -/
theorem tags_eq_of_bits_length_eq : ∀ {a a' : List Entry}, admissible a = true → admissible a' = true →
    (bits a).length = (bits a').length → a.map (fun e => e.sig) = a'.map (fun e => e.sig)
  | [], [], _, _, _ => rfl
  | [], _ :: _, _, ha', h => absurd (List.length_eq_zero_iff.1 h.symm) (bits_cons_ne_nil ha')
  | _ :: _, [], ha, _, h => absurd (List.length_eq_zero_iff.1 h) (bits_cons_ne_nil ha)
  | e :: rest, e' :: rest', ha, ha', h => by
    have hsig : e.sig.toNat = e'.sig.toNat := by rw [head_sig_eq_min ha, head_sig_eq_min ha', h]
    have hrest : (bits rest).length = (bits rest').length := by simpa [hsig] using h
    simp only [List.map_cons]
    rw [BitVec.eq_of_toNat_eq hsig, tags_eq_of_bits_length_eq (admissible_tail ha) (admissible_tail ha') hrest]

/-- Settles O28: `DECODE` gives a well-formed array with the bits of the operand, and bits fix tags. -/
theorem roundTripFromBits : Obligations.RoundTripFromBits := by
  intro s c hl ha h8
  refine ⟨_, exec_encode_disabled (s := s.issue c) (bs := none) rfl ha h8 rfl hl, fun d hd => ?_⟩
  have hbits : bits (decodeBytes (truncated c.iw)) = bits c.iw := by rw [bits_decodeBytes, bufferBits_truncated ha h8]
  have htags := tags_eq_of_bits_length_eq (admissible_decodeBytes _) ha (congrArg List.length hbits)
  refine ⟨_, (exec_decode_iff rfl).2 ⟨?_, congrArg decodeBytes hd.symm⟩, ?_, htags, hbits,
    fun hwf => eq_of_bits_eq (wf_decodeBytes _) hwf hbits⟩
  · rw [hd, truncated_length ha]; exact hl
  · simpa using congrArg List.length htags

/-! ### The empty operand (45_laws.md R117) -/

theorem resolveBs_of_neg (policy : ZeroBsPolicy) {b : Int} (hb : b < 0) :
    resolveBs policy (some b) = .error .invalidArgument := if_pos hb

/-- Settles O31: `ENCODE` and `DECODE` test nothing on the empty operand, and `PAD` tests the block size first. -/
theorem emptyInputIdentity : Obligations.EmptyInputIdentity := by
  intro s c pe bs hc
  refine ⟨fun hiw => ?_, fun hib => ?_, fun m hib hm => ?_, fun b hib hbs hb => ?_⟩
  · rw [exec_encode_iff hc, hiw]
    exact ⟨admitsLength_zero _, admissible_nil, rfl, admitsLength_zero _⟩
  · rw [exec_decode_iff hc, hib]
    exact ⟨admitsLength_zero _, decodeBytes_nil.symm⟩
  · rw [exec_pad_iff hc, hib, padBytes_of_resolved [] hm]
    exact ⟨admitsLength_zero _, by simp [paddedLength], admitsLength_zero _⟩
  · subst hbs
    rw [exec_eq_answered_iff hc rfl, answerOf_pad, hib, padBytes_of_unresolved [] (resolveBs_of_neg _ hb)]
    exact ⟨admitsLength_zero _, rfl⟩

end Sys2Proof.Machine
end

section
/-! The obligations of 60_exceptions.md: when `PAD` and `ENCODE` answer `InvalidArgument`, what an error response leaves
unchanged, and which commands are refused. -/

namespace Sys2Proof.Machine

/-! ### When `PAD` and `ENCODE` answer an error (R132) -/

/-- The block sizes that do not resolve (42_pad.md R91). -/
theorem resolveBs_eq_invalidArgument_iff {policy : ZeroBsPolicy} {bs : Option Int} :
    resolveBs policy bs = .error .invalidArgument ↔
      ∃ b, bs = some b ∧ (b < 0 ∨ (b = 0 ∧ policy = .invalidArgument)) := by
  cases bs with
  | none => simp [resolveBs]
  | some b =>
    by_cases negative : b < 0
    · simp [resolveBs, negative]
    · by_cases zero : b = 0
      · cases policy <;> simp [resolveBs, zero]
      · simp [resolveBs, negative, zero]

/-- The error of `PAD` is the one of its block size: nothing else is tested (42_pad.md R93). -/
theorem padBytes_eq_error_iff {cfg : Config} {pe : Option Bool} {bs : Option Int} {ib : List Byte} {e : CodecError} :
    padBytes cfg pe bs ib = .error e ↔ resolveBs cfg.zeroBsPolicy bs = .error e := by
  cases hbs : resolveBs cfg.zeroBsPolicy bs with
  | error e' => simp [padBytes_of_unresolved ib hbs]
  | ok m => simp [padBytes_of_resolved ib hbs]

/-- `ENCODE` answers `InvalidArgument` from its padding pass alone (40_encode.md R77). -/
theorem encodeBytes_eq_invalidArgument_iff {cfg : Config} {pe : Option Bool} {bs : Option Int} {iw : List Entry} :
    encodeBytes cfg pe bs iw = .error .invalidArgument ↔
      iw ≠ [] ∧ bitLength iw % 8 = 0 ∧ resolveBs cfg.zeroBsPolicy bs = .error .invalidArgument := by
  obtain ⟨rfl, he⟩ | ⟨hne, h8, he⟩ | ⟨hne, h8, he⟩ := encodeBytes_cases cfg pe bs iw <;> rw [he]
  · simp
  · simp [h8]
  · simp [hne, h8, padBytes_eq_error_iff]

/-- `PAD` answers an error exactly when its computation raises it. -/
theorem exec_pad_error_iff {s : State} {c : Command} {pe : Option Bool} {bs : Option Int} {e : CodecError}
    (h : s.inFlight = some c) :
    exec (.pad pe bs) s = .next (s.answered c (.error e) (.bytes [])) ↔
      admitsLength s.config c.ib.length = true ∧ padBytes s.config pe bs c.ib = .error e := by
  simp [exec_eq_answered_iff h (i := .pad pe bs) rfl, answerOf_pad, concluded_bytes_eq_ok]

/-- `ENCODE` answers an error exactly when its operand is admitted and its computation raises it. -/
theorem exec_encode_error_iff {s : State} {c : Command} {pe : Option Bool} {bs : Option Int} {e : CodecError}
    (h : s.inFlight = some c) :
    exec (.encode pe bs) s = .next (s.answered c (.error e) (.bytes [])) ↔
      admitsLength s.config c.iw.length = true ∧ admissible c.iw = true ∧ encodeBytes s.config pe bs c.iw = .error e := by
  simp [exec_eq_answered_iff h (i := .encode pe bs) rfl, answerOf_encode, concluded_bytes_eq_ok]

/-- Settles O15: the block size is what `PAD` tests, and what `ENCODE` tests in its padding pass. -/
theorem invalidArgumentExactly : Obligations.InvalidArgumentExactly := by
  intro s c pe bs hc
  refine ⟨rfl, fun hl => ?_, fun ha hl => ?_⟩
  · rw [exec_pad_error_iff hc, padBytes_eq_error_iff, resolveBs_eq_invalidArgument_iff]
    exact and_iff_right hl
  · rw [exec_encode_error_iff hc, encodeBytes_eq_invalidArgument_iff, resolveBs_eq_invalidArgument_iff]
    simp only [hl, ha, true_and]

/-! ### Error entry (R136) -/

/-- The two codes an error has (30_encoding.md R58). -/
theorem Status.code_of_ne_ok {st : Status} (h : st ≠ .ok) : st.code = 0b01#2 ∨ st.code = 0b10#2 := by
  cases st with
  | ok => exact absurd rfl h
  | error e => cases e <;> simp [Status.code]

/-- A legal error response is empty. -/
theorem Response.result_of_legal {r : Response} (h : r.legal = true) (he : r.status ≠ .ok) : r.result = .bytes [] := by
  obtain ⟨site, status, result⟩ := r
  cases status with
  | ok => exact absurd rfl he
  | error e => cases result <;> simp_all [Response.legal]

/-- A command that answers an error appends no record: a `DUMP` answers `OK` (43_dump.md R105). -/
theorem recordsOf_of_error {cfg : Config} {i : Instr} {c : Command} {a : Status × Result} (present : Bool)
    (h : answerOf cfg i c = .ok a) (he : a.1 ≠ .ok) : recordsOf present i c = [] := by
  obtain hnone | ⟨-, rfl, -⟩ := recordsOf_cases present i c
  · exact hnone
  · obtain ⟨-, rfl⟩ := answerOf_dump.1 h
    exact absurd rfl he

/-- Settles O33: the response is legal, and the sink gets no record. -/
theorem errorEntry : Obligations.ErrorEntry := by
  intro i s t r h hr he
  obtain ⟨c, a, -, ha, rfl⟩ := exec_eq_next_iff.1 h
  obtain rfl : ⟨c.site, a.1, a.2⟩ = r := by simpa using hr
  refine ⟨Response.result_of_legal (legal_of_answerOf ha) he, ?_, Status.code_of_ne_ok he⟩
  exact State.afterCommand_of_noRecord (recordsOf_of_error _ ha he)

/-! ### Refusals (R139) -/

/-- A command that a reset abandons is refused as the same command would be if it ran (log entry 27). -/
theorem exists_nextCommand_refused_alike {s : State} {c : Command} (hc : s.nextCommand c ∨ s.abandonedCommand c) :
    ∃ s', s'.nextCommand c ∧ s'.config = s.config ∧ ∀ r, step s = .refused r ↔ step s' = .refused r := by
  obtain hc | ⟨hflight, hhead⟩ := hc
  · exact ⟨s, hc, rfl, fun _ => .rfl⟩
  · obtain ⟨rest, hhost⟩ := List.head?_eq_some_iff.1 hhead
    exact ⟨{ s with host := .issue c :: rest }, .inr ⟨hflight, rfl⟩, rfl,
      step_issueThenReset_refused_iff hflight hhost⟩

/-- A step that runs or abandons a command is refused for its word, or as `answerOf` says. -/
theorem step_eq_refused_iff {s : State} {c : Command} (hc : s.nextCommand c ∨ s.abandonedCommand c) {r : Refusal} :
    step s = .refused r ↔
      (∃ why, decodeCmd s.config.hasDump c.word = .error why ∧ r = .invalidCommand why) ∨
      (∃ i, decodeCmd s.config.hasDump c.word = .ok i ∧ answerOf s.config i c = .error r) := by
  obtain ⟨s', hc', hconfig, alike⟩ := exists_nextCommand_refused_alike hc
  rw [alike, ← hconfig, step_eq_answer hc']
  cases decodeCmd s'.config.hasDump c.word with
  | error why => simp [eq_comm]
  | ok i => cases ha : answerOf s'.config i c <;> simp [ha]

/-- A command whose word is valid is refused exactly when it is outside the contract. -/
theorem answerOf_error_contract {cfg : Config} {c : Command} {i : Instr} (h : decodeCmd cfg.hasDump c.word = .ok i) :
    (∃ r, answerOf cfg i c = .error r) ↔ c.withinContract cfg = false := by
  rw [← Bool.not_eq_true, ← answerOf_contract h]
  cases answerOf cfg i c <;> simp

/-- Only `ENCODE` asks its operand for W1 and W2, and only of an operand within `MAXLEN`. -/
theorem answerOf_eq_illFormedBitArray_iff {cfg : Config} {i : Instr} {c : Command} :
    answerOf cfg i c = .error .illFormedBitArray ↔
      (∃ pe bs, i = .encode pe bs) ∧ admissible c.iw = false ∧ admitsLength cfg c.iw.length = true := by
  rw [answerOf_error]
  cases i <;> simp [Command.operandFits, Command.operandAdmissible, and_comm]

/-- Without a `MAXLEN` no length is beyond it. -/
theorem answerOf_ne_beyondMaxLen {cfg : Config} {i : Instr} {c : Command} (h : cfg.maxLen = none) :
    answerOf cfg i c ≠ .error .beyondMaxLen := by
  have all (n : Nat) : admitsLength cfg n = true := by simp [admitsLength, h]
  have result (out : Except CodecError (List Byte)) : resultAdmitted cfg out = true := by
    cases out <;> simp [resultAdmitted, all]
  cases i <;> simp [answerOf_error, Command.operandFits, Command.resultFits, all, result]

/-- Settles O34: the word is tested first, and then the operand and the result as `answerOf_error` says. -/
theorem refusedExactlyOutsideContract : Obligations.RefusedExactlyOutsideContract := by
  intro s c hc
  have refused (r : Refusal) := step_eq_refused_iff hc (r := r)
  refine ⟨?_, fun why => ?_, ?_, ?_, fun h hmax => ?_, fun mnemonic => ?_⟩
  · simp only [refused]
    cases hd : decodeCmd s.config.hasDump c.word with
    | error why => simp [Command.withinContract, hd]
    | ok i => simpa using answerOf_error_contract hd
  · simp [refused, answerOf_error]
  · rw [refused]
    constructor
    · rintro (⟨_, -, ⟨⟩⟩ | ⟨i, hd, h⟩)
      obtain ⟨⟨pe, bs, rfl⟩, hbroken⟩ := answerOf_eq_illFormedBitArray_iff.1 h
      exact ⟨⟨pe, bs, hd⟩, hbroken⟩
    · rintro ⟨⟨pe, bs, hd⟩, hbroken⟩
      exact .inr ⟨_, hd, answerOf_eq_illFormedBitArray_iff.2 ⟨⟨pe, bs, rfl⟩, hbroken⟩⟩
  · simp [refused, answerOf_error]
  · obtain ⟨why, -, hr⟩ | ⟨i, -, hr⟩ := (refused _).1 h
    · cases hr
    · exact answerOf_ne_beyondMaxLen hmax hr
  · simp [refused, answerOf_error]

end Sys2Proof.Machine
end
